-- ==== Sys2Proof/Word.lean ====
section
/-! DEFINITION. The machine's value domain. -/

namespace Sys2Proof

/-- A word: every cell, the counter, the relative base and every ALU value is a signed integer (R7, R8).
Whether a word is representable in a realization of finite width is `Sys2Proof.Machine.representable`. -/
abbrev Word := Int

end Sys2Proof
end

