-- ==== Sys2Proof/Syntax.lean ====
section
/-! DEFINITION. Instructions as the decoder delivers them: an identifier with its operands, each operand the mode
digit found for it and its raw parameter word (R51, R53, R56). -/

namespace Sys2Proof

/-- The addressing mode a digit stands for (R61 to R64). A digit 3 to 9 decodes too: it faults only when its
parameter is resolved, after everything that comes first in the order of R130. -/
inductive Mode where
  | position                 -- digit 0
  | immediate                -- digit 1
  | relative                 -- digit 2
  | undefined (digit : Nat)  -- digits 3 to 9
  deriving DecidableEq, Repr

/-- One parameter: its mode and the whole word of its cell (R53, R73). -/
structure Operand where
  mode : Mode
  word : Word
  deriving DecidableEq, Repr

/-- The ten identifiers of the opcode map (R68). -/
inductive Opcode where
  | add | mul | input | output | jumpIfTrue | jumpIfFalse | lessThan | equals | adjustRelativeBase | halt
  deriving DecidableEq, Repr

/-- How an instruction uses a parameter: as a value or as a destination address (R11). -/
inductive Role where
  | val | addr
  deriving DecidableEq, Repr

/-- A decoded instruction: one constructor per row of the opcode table (R68), parameters in order. -/
inductive Instr where
  | add (p1 p2 p3 : Operand)
  | mul (p1 p2 p3 : Operand)
  | input (p1 : Operand)
  | output (p1 : Operand)
  | jumpIfTrue (p1 p2 : Operand)
  | jumpIfFalse (p1 p2 : Operand)
  | lessThan (p1 p2 p3 : Operand)
  | equals (p1 p2 p3 : Operand)
  | adjustRelativeBase (p1 : Operand)
  | halt
  deriving DecidableEq, Repr

/-- The identifier of an instruction. -/
def Instr.opcode : Instr → Opcode
  | .add _ _ _ => .add
  | .mul _ _ _ => .mul
  | .input _ => .input
  | .output _ => .output
  | .jumpIfTrue _ _ => .jumpIfTrue
  | .jumpIfFalse _ _ => .jumpIfFalse
  | .lessThan _ _ _ => .lessThan
  | .equals _ _ _ => .equals
  | .adjustRelativeBase _ => .adjustRelativeBase
  | .halt => .halt

/-- The parameters of an instruction, in order. -/
def Instr.operands : Instr → List Operand
  | .add p1 p2 p3 => [p1, p2, p3]
  | .mul p1 p2 p3 => [p1, p2, p3]
  | .input p1 => [p1]
  | .output p1 => [p1]
  | .jumpIfTrue p1 p2 => [p1, p2]
  | .jumpIfFalse p1 p2 => [p1, p2]
  | .lessThan p1 p2 p3 => [p1, p2, p3]
  | .equals p1 p2 p3 => [p1, p2, p3]
  | .adjustRelativeBase p1 => [p1]
  | .halt => []

end Sys2Proof
end

