-- ==== Sys2Proof/WellFormed.lean ====
section
/-! DEFINITION. Which instructions are well formed: the legal modes of each parameter (R68, R69). -/

namespace Sys2Proof

/-- A `val` parameter may be in mode 0, 1 or 2 (R68). -/
def Mode.legalVal : Mode → Bool
  | .position => true
  | .immediate => true
  | .relative => true
  | .undefined _ => false

/-- An `addr` parameter may be in mode 0 or 2 (R62, R68). -/
def Mode.legalAddr : Mode → Bool
  | .position => true
  | .immediate => false
  | .relative => true
  | .undefined _ => false

/-- A mode that some digit 0 to 9 stands for: what the decoder can deliver (R52, R64). -/
def Mode.isDigit : Mode → Bool
  | .position => true
  | .immediate => true
  | .relative => true
  | .undefined d => decide (3 ≤ d ∧ d ≤ 9)

/-- Every parameter is in a mode legal for its role (the legal columns of R68). -/
def Instr.wellFormed : Instr → Bool
  | .add p1 p2 p3 => p1.mode.legalVal && p2.mode.legalVal && p3.mode.legalAddr
  | .mul p1 p2 p3 => p1.mode.legalVal && p2.mode.legalVal && p3.mode.legalAddr
  | .input p1 => p1.mode.legalAddr
  | .output p1 => p1.mode.legalVal
  | .jumpIfTrue p1 p2 => p1.mode.legalVal && p2.mode.legalVal
  | .jumpIfFalse p1 p2 => p1.mode.legalVal && p2.mode.legalVal
  | .lessThan p1 p2 p3 => p1.mode.legalVal && p2.mode.legalVal && p3.mode.legalAddr
  | .equals p1 p2 p3 => p1.mode.legalVal && p2.mode.legalVal && p3.mode.legalAddr
  | .adjustRelativeBase p1 => p1.mode.legalVal
  | .halt => true

/-- Every parameter has a mode that a digit stands for: the instructions some raw word decodes to, the ones that
fault when they are resolved among them. -/
def Instr.encodable (i : Instr) : Bool :=
  i.operands.all fun p => p.mode.isDigit

end Sys2Proof
end

