-- ==== Sys2Proof/Decode.lean ====
section
/-! DEFINITION. The opcode map, the decoder and the encoder (R51 to R60, R68 to R72). -/

namespace Sys2Proof

/-- The identifier of the opcode map (R68). -/
def Opcode.id : Opcode → Nat
  | .add => 1
  | .mul => 2
  | .input => 3
  | .output => 4
  | .jumpIfTrue => 5
  | .jumpIfFalse => 6
  | .lessThan => 7
  | .equals => 8
  | .adjustRelativeBase => 9
  | .halt => 99

/-- The roles of the parameters, in order (R68). -/
def Opcode.roles : Opcode → List Role
  | .add => [.val, .val, .addr]
  | .mul => [.val, .val, .addr]
  | .input => [.addr]
  | .output => [.val]
  | .jumpIfTrue => [.val, .val]
  | .jumpIfFalse => [.val, .val]
  | .lessThan => [.val, .val, .addr]
  | .equals => [.val, .val, .addr]
  | .adjustRelativeBase => [.val]
  | .halt => []

/-- The mode digits legal for a role (R68). -/
def Role.legalDigits : Role → List Nat
  | .val => [0, 1, 2]
  | .addr => [0, 2]

/-- `ParamCount(id)` (R68): fixed by the identifier alone (R51). -/
def Opcode.paramCount : Opcode → Nat
  | .add => 3
  | .mul => 3
  | .input => 1
  | .output => 1
  | .jumpIfTrue => 2
  | .jumpIfFalse => 2
  | .lessThan => 3
  | .equals => 3
  | .adjustRelativeBase => 1
  | .halt => 0

/-- The instruction an identifier selects; `none` for 0 and 10 to 98 (R54, R70). -/
def Opcode.ofId : Nat → Option Opcode
  | 1 => some .add
  | 2 => some .mul
  | 3 => some .input
  | 4 => some .output
  | 5 => some .jumpIfTrue
  | 6 => some .jumpIfFalse
  | 7 => some .lessThan
  | 8 => some .equals
  | 9 => some .adjustRelativeBase
  | 99 => some .halt
  | _ => none

/-- `digit_k(v)` of a non-negative integer (R8). -/
def digit (k v : Nat) : Nat := v / 10 ^ k % 10

/-- The mode a digit stands for (R61 to R64). -/
def Mode.ofDigit : Nat → Mode
  | 0 => .position
  | 1 => .immediate
  | 2 => .relative
  | d => .undefined d

/-- The digit that stands for a mode. -/
def Mode.toDigit : Mode → Nat
  | .position => 0
  | .immediate => 1
  | .relative => 2
  | .undefined d => d

/-- The mode of parameter i (1-based) of a raw word: digit i + 1 (R56). -/
def modeOf (i raw : Nat) : Mode := Mode.ofDigit (digit (i + 1) raw)

/-- The identifier step of the decoder (R54, R55): the instruction a raw word selects, or the `info` of
`UnknownOpcode`: the word itself if it is negative, else its identifier. -/
def identify (raw : Word) : Except Word Opcode :=
  if raw < 0 then .error raw
  else match Opcode.ofId (raw.toNat % 100) with
    | some op => .ok op
    | none => .error ((raw.toNat % 100 : Nat) : Word)

/-- The decoded tuple of R59 as an instruction: `op` with the modes of `raw` and the parameter cells' words. Only the
modes and cells of `op`'s own parameters are looked at (R57). -/
def assemble (op : Opcode) (raw : Nat) (c1 c2 c3 : Word) : Instr :=
  let p1 : Operand := { mode := modeOf 1 raw, word := c1 }
  let p2 : Operand := { mode := modeOf 2 raw, word := c2 }
  let p3 : Operand := { mode := modeOf 3 raw, word := c3 }
  match op with
  | .add => .add p1 p2 p3
  | .mul => .mul p1 p2 p3
  | .input => .input p1
  | .output => .output p1
  | .jumpIfTrue => .jumpIfTrue p1 p2
  | .jumpIfFalse => .jumpIfFalse p1 p2
  | .lessThan => .lessThan p1 p2 p3
  | .equals => .equals p1 p2 p3
  | .adjustRelativeBase => .adjustRelativeBase p1
  | .halt => .halt

/-- Why a list of cells is no instruction. -/
inductive DecodeError where
  /-- The raw word is negative or its identifier is not in the table (R55, R70); `info` as R121 says. -/
  | unknownOpcode (info : Word)
  /-- The list ends before the instruction does. Memory never ends so (R35): only a list given from outside can. -/
  | truncated
  deriving DecidableEq, Repr

/-- The decoder on a list of cells, the raw opcode word first: the instruction and the cells after it. -/
def decode : List Word → Except DecodeError (Instr × List Word)
  | [] => .error .truncated
  | raw :: cells =>
    match identify raw with
    | .error info => .error (.unknownOpcode info)
    | .ok op =>
      if cells.length < op.paramCount then .error .truncated
      else .ok (assemble op raw.toNat (cells.getD 0 0) (cells.getD 1 0) (cells.getD 2 0), cells.drop op.paramCount)

/-- The weighted mode digits of parameters i, i + 1, … : parameter i's digit counts 10^(i+1) (R56, R69). -/
def modeDigits : Nat → List Operand → Nat
  | _, [] => 0
  | i, p :: ps => 10 ^ (i + 1) * p.mode.toDigit + modeDigits (i + 1) ps

/-- The canonical raw word `id + 100*m1 + 1000*m2 + 10000*m3` (R69). -/
def Instr.rawWord (i : Instr) : Nat := i.opcode.id + modeDigits 1 i.operands

/-- The encoder: the canonical raw word and then the parameter cells (R51, R69, R75). -/
def encode (i : Instr) : List Word := (i.rawWord : Word) :: i.operands.map fun p => p.word

/-- The instruction the decoder reads where the first cell's word is the number `w` and every cell after it is 0. The
opcode table numbers no bits: its rows match the raw word's decimal value, and a word has no width by default (R6, R52),
so all of `w` is the raw opcode word (log entry 7). -/
def decodeTableWord (_nbits w : Nat) : Option Instr :=
  match decode [(w : Word), 0, 0, 0] with
  | .ok (i, _) => some i
  | .error _ => none

end Sys2Proof
end

