-- ==== Sys2Proof/Config.lean ====
section
/-! DEFINITION. The implementation parameters of R6, fixed for the life of an engine (R33). The spec leaves no value
open (R152), so there is no free value here. -/

namespace Sys2Proof

/-- The four parameters of R6; `none` means unbounded. -/
structure Config where
  /-- `WORD_BITS`: the width of every word; `none` is the mathematical integers. -/
  wordBits : Option Nat
  /-- `MEM_CELLS`: the number of addressable cells. -/
  memCells : Option Nat
  /-- `IN_CAPACITY`: the capacity of the input FIFO. -/
  inCapacity : Option Nat
  /-- `OUT_CAPACITY`: the capacity of the output FIFO. -/
  outCapacity : Option Nat
  deriving DecidableEq, Repr

/-- The defaults of R6: everything unbounded. -/
def Config.default : Config :=
  { wordBits := none, memCells := none, inCapacity := none, outCapacity := none }

end Sys2Proof
end

