-- ==== Sys2Proof/Machine/State.lean ====
section
/-! DEFINITION. The architectural state of one engine (R15), the spec's fault record, and the reasons a step of the
model could stop. -/

namespace Sys2Proof.Machine

/-- The cells that hold something other than 0, by address. Canonical form: addresses strictly rising and no word 0,
since an unlisted cell reads as 0 (R35). The cell is the spec's unit of memory, a whole word (R34). -/
abbrev Memory := List (Nat × Word)

/-- The engine status (R26). -/
inductive Status where
  | ready | running | suspended | halted | faulted
  deriving DecidableEq, Repr

/-- The fault codes of R121, and `noFault` for the code 0 of an empty record (R28). -/
inductive FaultCode where
  | noFault | unknownOpcode | invalidAddressingMode | inputExhausted | undefinedMode | negativeAddress
  | capacityExceeded | valueOutOfRange | outputOverflow
  deriving DecidableEq, Repr

/-- The fault record (R28). -/
structure FaultRecord where
  code : FaultCode
  /-- `pc` at the start of the faulting step. -/
  fpc : Word
  /-- The raw opcode word fetched, 0 if the fetch itself faulted. -/
  raw : Word
  /-- The 1-based index of the parameter concerned, 0 if none. -/
  param : Nat
  /-- The fault's own value (R121); it need not be representable. -/
  info : Word
  deriving DecidableEq, Repr

/-- The record when there is no fault: all fields 0 (R28). -/
def FaultRecord.none : FaultRecord := { code := .noFault, fpc := 0, raw := 0, param := 0, info := 0 }

/-- What `raise F(info)` carries (R9); `fpc` and `raw` are the step's. -/
structure Raised where
  code : FaultCode
  param : Nat
  info : Word
  deriving DecidableEq, Repr

/-- The three per-step flags (R21) and `v_out`, the value the step's output wrote (R77). -/
structure Flags where
  jump : Bool
  halt : Bool
  output : Bool
  vout : Option Word
  deriving DecidableEq, Repr

/-- All flags 0: their value at the start of every step (R78) and at reset (R142). -/
def Flags.clear : Flags := { jump := false, halt := false, output := false, vout := .none }

/-- One engine: the state of R15, the flags of the step it ran last, and the parameters it was created with. -/
@[ext]
structure State where
  /-- The parameters of R6: configuration that no step and no command writes (R33; log entry 1). -/
  params : Config
  mem : Memory
  /-- The length of the backing sequence (R36). -/
  len : Nat
  pc : Word
  rb : Word
  status : Status
  fault : FaultRecord
  /-- The input FIFO, oldest word first (R29). -/
  inq : List Word
  /-- The output FIFO, oldest word first (R30). -/
  outq : List Word
  /-- The flags of the last step: the result of that step, read by RESUME, never by an instruction (R25; log entry 3). -/
  flags : Flags
  deriving DecidableEq, Repr

/-- The engine right after LOAD of the empty program with default parameters and devices (R141, R142, R145;
log entry 2). -/
def State.reset : State :=
  { params := Config.default, mem := [], len := 0, pc := 0, rb := 0, status := .ready, fault := FaultRecord.none,
    inq := [], outq := [], flags := Flags.clear }

/-- The reasons a step could stop outside the state. There are none: every fault of the spec is taken as R131 says, in
a next state whose status is `faulted` (log entry 19). Nobody raises one, which is safe. -/
inductive Fault
  deriving DecidableEq, Repr

/-- The reasons an instruction could have no meaning. -/
inductive Refusal where
  /-- An instruction without a meaning, raised by its arm of `exec` alone; safe. No arm raises it: every instruction
  has its meaning. -/
  | notModelled (mnemonic : String)
  deriving DecidableEq, Repr

end Sys2Proof.Machine
end

