-- ==== Sys2Proof/Machine/Flags.lean ====
section
/-! DEFINITION. The per-step flags (R21 to R25) and the numeric codes the host sees (R26, R121). -/

namespace Sys2Proof.Machine

/-- A taken jump sets `jump` (R22). -/
def Flags.setJump (f : Flags) : Flags := { f with jump := true }

/-- halt sets `halt` (R23). -/
def Flags.setHalt (f : Flags) : Flags := { f with halt := true }

/-- output sets `output` and gives the step its `v_out` (R24, R105). -/
def Flags.setOutput (f : Flags) (v : Word) : Flags := { f with output := true, vout := some v }

/-- The default advance is suppressed by `jump` and by `halt` (R22, R23, R79). -/
def Flags.suppressAdvance (f : Flags) : Bool := f.jump || f.halt

/-- The status code the host reads (R26). -/
def Status.code : Status → Nat
  | .ready => 0
  | .running => 1
  | .suspended => 2
  | .halted => 3
  | .faulted => 4

/-- The numeric fault code (R121). -/
def FaultCode.code : FaultCode → Nat
  | .noFault => 0
  | .unknownOpcode => 1
  | .invalidAddressingMode => 2
  | .inputExhausted => 3
  | .undefinedMode => 4
  | .negativeAddress => 5
  | .capacityExceeded => 6
  | .valueOutOfRange => 7
  | .outputOverflow => 8

/-- `Halted` and `Faulted`: no step runs until LOAD (R27, R93, R94). -/
def Status.isFinal : Status → Bool
  | .ready => false
  | .running => false
  | .suspended => false
  | .halted => true
  | .faulted => true

end Sys2Proof.Machine
end

