-- ==== Sys2Proof/Machine/Ops.lean ====
section
/-! DEFINITION. The shared operations: ranges, memory, the FIFOs, the frame of a step, and taking a fault. -/

namespace Sys2Proof.Machine

/-- A value a word of the engine can hold (R7). -/
def representable (c : Config) (v : Word) : Bool :=
  match c.wordBits with
  | none => true
  | some w => decide (-(2 ^ (w - 1)) ≤ v ∧ v ≤ 2 ^ (w - 1) - 1)

/-- `check(v)` (R9): `ValueOutOfRange` for a value that is not representable. -/
def check (c : Config) (param : Nat) (v : Word) : Except Raised Word :=
  if representable c v then .ok v else .error { code := .valueOutOfRange, param := param, info := v }

/-- A cell address of the address space (R34, R40). -/
def validAddr (c : Config) (a : Word) : Bool :=
  match c.memCells with
  | none => decide (0 ≤ a)
  | some m => decide (0 ≤ a ∧ a < m)

/-- `checkFetch` and `checkAddr` (R59, R67): the cell an address names, or the fault it raises. -/
def checkAddr (c : Config) (param : Nat) (a : Word) : Except Raised Nat :=
  if a < 0 then .error { code := .negativeAddress, param := param, info := a }
  else if validAddr c a then .ok a.toNat
  else .error { code := .capacityExceeded, param := param, info := a }

/-- Whether a FIFO of this capacity may hold n words (R29, R30). -/
def fits (capacity : Option Nat) (n : Nat) : Bool :=
  match capacity with
  | none => true
  | some c => decide (n ≤ c)

/-! ### Memory -/

/-- The word a cell holds; a cell that is not listed reads as 0 (R35). -/
def Memory.read : Memory → Nat → Word
  | [], _ => 0
  | (b, w) :: m, a => if a = b then w else Memory.read m a

/-- Puts a word in front of cells of higher addresses; 0 is left unlisted. -/
def Memory.put (a : Nat) (v : Word) (m : Memory) : Memory := if v = 0 then m else (a, v) :: m

/-- Writes one cell, keeping the canonical form. -/
def Memory.write : Memory → Nat → Word → Memory
  | [], a, v => Memory.put a v []
  | (b, w) :: m, a, v =>
    if a < b then Memory.put a v ((b, w) :: m)
    else if a = b then Memory.put a v m
    else (b, w) :: Memory.write m a v

/-- The canonical form: addresses strictly rising, no word 0. -/
abbrev Memory.wf (m : Memory) : Prop := m.Pairwise (fun x y => x.1 < y.1) ∧ ∀ x ∈ m, x.2 ≠ 0

/-- The cells a, a + 1, … holding the words of a list, every other cell 0. -/
def Memory.ofWords : Nat → List Word → Memory
  | _, [] => []
  | a, v :: vs => Memory.put a v (Memory.ofWords (a + 1) vs)

/-- Extends memory to n cells, if it is shorter (R36). -/
def State.growTo (s : State) (n : Nat) : State := { s with len := max s.len n }

/-- `MemRead(a)` (R37): the cell's word, and the engine with the extension that makes cell a exist. -/
def State.memRead (s : State) (a : Nat) : Word × State := (s.mem.read a, s.growTo (a + 1))

/-- `MemWrite(a, v)` (R38). -/
def State.memWrite (s : State) (a : Nat) (v : Word) : State :=
  { s with mem := s.mem.write a v, len := max s.len (a + 1) }

/-- The memory image `mem[0] .. mem[len-1]` (R36). -/
def State.image (s : State) : List Word := (List.range s.len).map s.mem.read

/-! ### Registers and FIFOs -/

/-- Writes the counter (R16). -/
def State.setPc (s : State) (v : Word) : State := { s with pc := v }

/-- Writes the relative base (R19). -/
def State.setRb (s : State) (v : Word) : State := { s with rb := v }

/-- Writes the step's flags (R21). -/
def State.setFlags (s : State) (f : Flags) : State := { s with flags := f }

/-- Writes the status (R26). -/
def State.setStatus (s : State) (v : Status) : State := { s with status := v }

/-- Sets what the input FIFO holds (R29). -/
def State.setInq (s : State) (q : List Word) : State := { s with inq := q }

/-- Sets what the output FIFO holds (R30). -/
def State.setOutq (s : State) (q : List Word) : State := { s with outq := q }

/-- `InPop()` (R9): the oldest word of the input FIFO, `InputExhausted` if there is none (R104). -/
def State.inPop (s : State) : Except Raised (Word × State) :=
  match s.inq with
  | [] => .error { code := .inputExhausted, param := 0, info := 0 }
  | v :: q => .ok (v, s.setInq q)

/-- `OutPush(v)` (R9), `OutputOverflow` if the output FIFO is full (R105, R107; log entry 9). -/
def State.outPush (s : State) (v : Word) : Except Raised State :=
  if fits s.params.outCapacity (s.outq.length + 1) then .ok (s.setOutq (s.outq ++ [v]))
  else .error { code := .outputOverflow, param := 0, info := v }

/-! ### The frame of a step -/

/-- The raw opcode word of the step: the word at `pc`, or 0 where `pc` cannot be fetched from (R28; log entry 18). -/
def State.rawWord (s : State) : Word := if validAddr s.params s.pc then s.mem.read s.pc.toNat else 0

/-- Taking a fault (R131, R84), from the state at the start of the step: nothing of the step is committed, the record
is written and the status becomes `faulted`. The flags are left 0 (log entry 4). There is no return from a fault
(R133): only LOAD leaves `faulted` (`Sys2Proof.Machine.load`). -/
def State.takeFault (s : State) (e : Raised) : State :=
  { s with
    status := .faulted
    fault := { code := e.code, fpc := s.pc, raw := s.rawWord, param := e.param, info := e.info }
    flags := Flags.clear }

/-- The start of a step (R77): flags 0, and memory extended by the fetches of the raw word and its n parameter cells
(R41; log entry 17). -/
def State.startStep (s : State) (n : Nat) : State :=
  (s.setFlags Flags.clear).growTo (s.pc + n + 1).toNat

/-- The default advance (R79, R82): `pc + 1 + n`, unless `jump` or `halt` is set. -/
def State.advance (s : State) (n : Nat) : Except Raised State :=
  if s.flags.suppressAdvance then .ok s
  else do
    let npc ← check s.params 0 (s.pc + 1 + n)
    .ok (s.setPc npc)

/-- The status at the end of a step without fault (R77, R81). -/
def State.settle (s : State) : State := s.setStatus (if s.flags.halt then .halted else .running)

/-- The part of Step() after the decode (R77): the body resolves and executes, then the advance and the new status, all
committed together; a fault raised anywhere discards them (R84). -/
def State.runStep (s : State) (op : Opcode) (body : State → Except Raised State) :
    Host.Outcome State Fault Refusal :=
  match body (s.startStep op.paramCount) >>= fun t => t.advance op.paramCount with
  | .ok t => .next t.settle
  | .error e => .next (s.takeFault e)

end Sys2Proof.Machine
end

