-- ==== Sys2Proof/Machine/Operands.lean ====
section
/-! DEFINITION. The addressing resolver (R61 to R67, R73) and the operand shapes that instructions share. -/

namespace Sys2Proof.Machine

/-- The address an operand names: its word in mode 0, `rb` plus its word in mode 2 (R61, R63). -/
def State.effAddr (s : State) (p : Operand) : Word :=
  match p.mode with
  | .relative => s.rb + p.word
  | .position => p.word
  | .immediate => p.word
  | .undefined _ => p.word

/-- The cell of an operand in mode 0 or 2: the sum is checked in mode 2, then the address (R65, R67). -/
def State.resolveCell (s : State) (i : Nat) (p : Operand) : Except Raised Nat :=
  match p.mode with
  | .relative => do
    let a ← check s.params i (s.effAddr p)
    checkAddr s.params i a
  | .position => checkAddr s.params i (s.effAddr p)
  | .immediate => .error { code := .invalidAddressingMode, param := i, info := p.word }
  | .undefined d => .error { code := .undefinedMode, param := i, info := (d : Word) }

/-- `ResolveVal(i, m, p)` (R67): the operand's value, and the engine with the extension its read made. -/
def State.resolveVal (s : State) (i : Nat) (p : Operand) : Except Raised (Word × State) :=
  match p.mode with
  | .immediate => .ok (p.word, s)
  | .position => do
    let a ← s.resolveCell i p
    .ok (s.memRead a)
  | .relative => do
    let a ← s.resolveCell i p
    .ok (s.memRead a)
  | .undefined d => .error { code := .undefinedMode, param := i, info := (d : Word) }

/-- `ResolveAddr(i, m, p)` (R67): the cell an operand names as a destination; mode 1 is `InvalidAddressingMode` (R62). -/
def State.resolveAddr (s : State) (i : Nat) (p : Operand) : Except Raised Nat := s.resolveCell i p

/-- The body of an instruction of shape val val addr (R68): operands in order, then the result, then the one write
(R41, R66). The destination is resolved with the `rb` of the start of the step (R66). -/
def storeBinary (result : Config → Word → Word → Except Raised Word) (p1 p2 p3 : Operand) (s : State) :
    Except Raised State := do
  let (a, s1) ← s.resolveVal 1 p1
  let (b, s2) ← s1.resolveVal 2 p2
  let d ← s.resolveAddr 3 p3
  let v ← result s.params a b
  .ok (s2.memWrite d v)

/-- The body of a jump (R108, R109): condition and target are both resolved; a taken jump loads `pc` and sets `jump`. -/
def jumpWhen (taken : Word → Bool) (p1 p2 : Operand) (s : State) : Except Raised State := do
  let (a, s1) ← s.resolveVal 1 p1
  let (b, s2) ← s1.resolveVal 2 p2
  .ok (if taken a then (s2.setPc b).setFlags s2.flags.setJump else s2)

end Sys2Proof.Machine
end

