-- ==== Sys2Proof/Machine/Arithmetic.lean ====
section
/-! DEFINITION. add and mul (41_arithmetic.md). -/

namespace Sys2Proof.Machine

/-- add (R100): `dest := a + b`, exact, `ValueOutOfRange` if the sum is not representable (R102). -/
def execAdd (p1 p2 p3 : Operand) (s : State) : Host.Outcome State Fault Refusal :=
  s.runStep .add (storeBinary (fun c a b => check c 0 (a + b)) p1 p2 p3)

/-- mul (R101): `dest := a * b`, exact, `ValueOutOfRange` if the product is not representable (R102). -/
def execMul (p1 p2 p3 : Operand) (s : State) : Host.Outcome State Fault Refusal :=
  s.runStep .mul (storeBinary (fun c a b => check c 0 (a * b)) p1 p2 p3)

end Sys2Proof.Machine
end

