-- ==== Sys2Proof/Machine/Compare.lean ====
section
/-! DEFINITION. The two compares (44_compare.md). -/

namespace Sys2Proof.Machine

/-- less-than (R112, R114, R115): `dest := 1` if `a < b` as signed integers, else 0. The comparison cannot fault
(log entry 12). -/
def execLessThan (p1 p2 p3 : Operand) (s : State) : Host.Outcome State Fault Refusal :=
  s.runStep .lessThan (storeBinary (fun _ a b => .ok (if a < b then 1 else 0)) p1 p2 p3)

/-- equals (R113, R114): `dest := 1` if `a = b`, else 0. -/
def execEquals (p1 p2 p3 : Operand) (s : State) : Host.Outcome State Fault Refusal :=
  s.runStep .equals (storeBinary (fun _ a b => .ok (if a = b then 1 else 0)) p1 p2 p3)

end Sys2Proof.Machine
end

