-- ==== Sys2Proof/Machine/Halt.lean ====
section
/-! DEFINITION. halt (46_halt.md). -/

namespace Sys2Proof.Machine

/-- The body: `halt` is set (R118). -/
def haltBody (s : State) : Except Raised State := .ok (s.setFlags s.flags.setHalt)

/-- halt (R118): `pc` stays and the status becomes `halted`, because `halt` is set (R81). -/
def execHalt (s : State) : Host.Outcome State Fault Refusal := s.runStep .halt haltBody

end Sys2Proof.Machine
end

