-- ==== Sys2Proof/Machine/InOut.lean ====
section
/-! DEFINITION. input and output (42_io.md). -/

namespace Sys2Proof.Machine

/-- input's body: the destination is resolved, then the oldest word of `inq` is popped into it (R104). -/
def inputBody (p1 : Operand) (s : State) : Except Raised State := do
  let d ← s.resolveAddr 1 p1
  let (v, s1) ← s.inPop
  .ok (s1.memWrite d v)

/-- output's body: the operand's value is appended to `outq`, and the `output` flag is set (R105). -/
def outputBody (p1 : Operand) (s : State) : Except Raised State := do
  let (a, s1) ← s.resolveVal 1 p1
  let s2 ← s1.outPush a
  .ok (s2.setFlags (s2.flags.setOutput a))

/-- input (R104): an empty `inq` is fatal in every mode (R106, R124). -/
def execInput (p1 : Operand) (s : State) : Host.Outcome State Fault Refusal := s.runStep .input (inputBody p1)

/-- output (R105). -/
def execOutput (p1 : Operand) (s : State) : Host.Outcome State Fault Refusal := s.runStep .output (outputBody p1)

end Sys2Proof.Machine
end

