-- ==== Sys2Proof/Machine/Jumps.lean ====
section
/-! DEFINITION. The two jumps (43_jumps.md). -/

namespace Sys2Proof.Machine

/-- jump-if-true (R108): taken when the condition is not 0. The target is not checked (R111). -/
def execJumpIfTrue (p1 p2 : Operand) (s : State) : Host.Outcome State Fault Refusal :=
  s.runStep .jumpIfTrue (jumpWhen (fun a => a != 0) p1 p2)

/-- jump-if-false (R109): taken when the condition is 0. The target is not checked (R111). -/
def execJumpIfFalse (p1 p2 : Operand) (s : State) : Host.Outcome State Fault Refusal :=
  s.runStep .jumpIfFalse (jumpWhen (fun a => a == 0) p1 p2)

end Sys2Proof.Machine
end

