-- ==== Sys2Proof/Machine/RelativeBase.lean ====
section
/-! DEFINITION. adjust-relative-base (45_relative_base.md). -/

namespace Sys2Proof.Machine

/-- The body: `rb := rb + a`, `ValueOutOfRange` if the sum is not representable. A mode-2 operand is read at the old
`rb` (R116). -/
def adjustBody (p1 : Operand) (s : State) : Except Raised State := do
  let (a, s1) ← s.resolveVal 1 p1
  let r ← check s.params 0 (s.rb + a)
  .ok (s1.setRb r)

/-- adjust-relative-base (R116). -/
def execAdjustRelativeBase (p1 : Operand) (s : State) : Host.Outcome State Fault Refusal :=
  s.runStep .adjustRelativeBase (adjustBody p1)

end Sys2Proof.Machine
end

