-- ==== Sys2Proof/Machine/Dispatch.lean ====
section
/-! DEFINITION. One arm per instruction. -/

namespace Sys2Proof.Machine

/-- The rest of Step() once the decode at `pc` has given i (R77); s is the engine at the start of the step. -/
def exec (i : Instr) (s : State) : Host.Outcome State Fault Refusal :=
  match i with
  | .add p1 p2 p3 => Sys2Proof.Machine.execAdd p1 p2 p3 s
  | .mul p1 p2 p3 => Sys2Proof.Machine.execMul p1 p2 p3 s
  | .input p1 => Sys2Proof.Machine.execInput p1 s
  | .output p1 => Sys2Proof.Machine.execOutput p1 s
  | .jumpIfTrue p1 p2 => Sys2Proof.Machine.execJumpIfTrue p1 p2 s
  | .jumpIfFalse p1 p2 => Sys2Proof.Machine.execJumpIfFalse p1 p2 s
  | .lessThan p1 p2 p3 => Sys2Proof.Machine.execLessThan p1 p2 p3 s
  | .equals p1 p2 p3 => Sys2Proof.Machine.execEquals p1 p2 p3 s
  | .adjustRelativeBase p1 => Sys2Proof.Machine.execAdjustRelativeBase p1 s
  | .halt => Sys2Proof.Machine.execHalt s

end Sys2Proof.Machine
end

