-- ==== Sys2Proof/Machine/Fetch.lean ====
section
/-! DEFINITION. Fetching and decoding the instruction at `pc` (R59), and placing one there from outside. -/

namespace Sys2Proof.Machine

/-- The checks of the parameter cells `pc + i`, k of them from the i-th on, in order (R59; R130 step 3). -/
def checkParamCells (c : Config) (pc : Word) : Nat → Nat → Except Raised Unit
  | _, 0 => .ok ()
  | i, k + 1 => do
    let a ← check c i (pc + i)
    let _ ← checkAddr c i a
    checkParamCells c pc (i + 1) k

/-- The word of the cell at an address already checked. -/
def State.cell (s : State) (a : Word) : Word := s.mem.read a.toNat

/-- `Decode(pc)` (R59): the opcode fetch, the identifier, then the parameter cells; the first fault met is raised
(R58, R130 steps 1 to 3). What these reads do to `len` is in `State.startStep`. -/
def State.fetch (s : State) : Except Raised Instr := do
  let a ← checkAddr s.params 0 s.pc
  let raw := s.mem.read a
  match identify raw with
  | .error info => .error { code := .unknownOpcode, param := 0, info := info }
  | .ok op => do
    checkParamCells s.params s.pc 1 op.paramCount
    .ok (assemble op raw.toNat (s.cell (s.pc + 1)) (s.cell (s.pc + 2)) (s.cell (s.pc + 3)))

/-- Where an instruction placed from outside goes: `pc` itself where the engine can fetch from it. -/
def State.fetchHome (s : State) : Nat := if validAddr s.params s.pc then s.pc.toNat else 0

/-- The engine with a raw word and three zero parameter cells placed where the next step fetches, and, where the next
step would fetch nothing, made ready to (R33, R98: a program is put into memory from outside; log entry 7). -/
def State.placeInstr (s : State) (w : Nat) : State :=
  let a := s.fetchHome
  let s1 := (((s.memWrite a (w : Word)).memWrite (a + 1) 0).memWrite (a + 2) 0).memWrite (a + 3) 0
  let s2 := s1.setPc (a : Word)
  if s.status.isFinal then { s2 with status := .ready, fault := FaultRecord.none } else s2

end Sys2Proof.Machine
end

