-- ==== Sys2Proof/Machine/Step.lean ====
section
/-! DEFINITION. One step. -/

namespace Sys2Proof.Machine

/-- STEP (R77, R86): fetch, decode and execute one instruction. On a halted or faulted engine it changes nothing
(R93, R94; log entry 5). -/
def step (s : State) : Host.Outcome State Fault Refusal :=
  if s.status.isFinal then .next s
  else match s.fetch with
    | .ok i => exec i s
    | .error e => .next (s.takeFault e)

/-- The engine whose next step fetches and runs the instruction with raw word `w` and zero parameter cells
(`State.placeInstr`). The opcode table numbers no bits, so `w` is the raw word's value (log entry 7). -/
def State.withFetchWord (s : State) (_nbits w : Nat) : State := s.placeInstr w

end Sys2Proof.Machine
end

