-- ==== Sys2Proof/Machine/Commands.lean ====
section
/-! DEFINITION. The host's commands (R85 to R99, R141 to R144), one whole transaction each. RUN and RESUME need not
return (R97): they take a bound on the number of steps, and answer `none` while they have not returned within it
(log entry 8). -/

namespace Sys2Proof.Machine

/-- The commands of R85 and their arguments. -/
inductive Command where
  | load (program : List Word) (inDev outDev : Option (List Word))
  | step
  | run (seed : List Word)
  | resume (inputs : List Word)
  | inPush (v : Word)
  | outPop
  | memGet (i : Word)
  | memSet (i v : Word)
  | readStatus
  deriving DecidableEq, Repr

/-- What a command gives back (the result column of R85). -/
inductive Response where
  | accepted
  | rejected
  /-- A STEP that ran (R86): the step's flags with the value written, the new status, the fault record. -/
  | stepped (flags : Flags) (status : Status) (fault : FaultRecord)
  /-- STEP, RUN or RESUME on an engine that is, or has become, halted or faulted (R86, R87, R89, R93, R94). -/
  | ended (status : Status) (fault : FaultRecord)
  /-- RESUME suspended after an output of v (R89, R91). -/
  | yielded (v : Word)
  /-- MEM_GET's or OUT_POP's word. -/
  | word (v : Word)
  /-- OUT_POP on an empty FIFO (R99). -/
  | empty
  /-- READ_STATUS. -/
  | report (status : Status) (fault : FaultRecord) (pc rb : Word) (len : Nat)
  deriving DecidableEq, Repr

/-- LOAD (R141): the only reset. `none` is a program that does not fit (R144). A supplied device keeps what it holds
(R143; log entry 13). -/
def load (c : Config) (program : List Word) (inDev outDev : Option (List Word)) : Option State :=
  if program.all (representable c) && fits c.memCells program.length then
    some { params := c, mem := Memory.ofWords 0 program, len := program.length, pc := 0, rb := 0, status := .ready,
           fault := FaultRecord.none, inq := inDev.getD [], outq := outDev.getD [], flags := Flags.clear }
  else none

/-- Step() as a function on engines: `step` always answers a next state. -/
def stepState (s : State) : State :=
  match step s with
  | .next t => t
  | .fault _ => s
  | .refused _ => s

/-- Appends words to the tail of `inq` in order, all or nothing (R87, R89, R99; log entries 9 and 10). No words are never
rejected, whatever `inq` already holds: nothing is appended, so no capacity would be exceeded by it (R87, R89). -/
def State.pushInputs (s : State) (vs : List Word) : Option State :=
  if vs.isEmpty || (vs.all (representable s.params) && fits s.params.inCapacity (s.inq.length + vs.length)) then
    some (s.setInq (s.inq ++ vs))
  else none

/-- The loop of RUN (R87). It runs over any carrier σ of one engine's state, seen through `view` and changed through
`upd`, so that the engine can share its devices (`Sys2Proof.Machine.Network`). -/
def runLoop {σ : Type} (view : σ → State) (upd : (State → State) → σ → σ) : Nat → σ → Option (Response × σ)
  | 0, _ => none
  | fuel + 1, x =>
    let y := upd stepState x
    if (view y).status.isFinal then some (.ended (view y).status (view y).fault, y)
    else runLoop view upd fuel y

/-- The loop of RESUME (R89): as RUN's, but it suspends after each output step (R90). -/
def resumeLoop {σ : Type} (view : σ → State) (upd : (State → State) → σ → σ) : Nat → σ → Option (Response × σ)
  | 0, _ => none
  | fuel + 1, x =>
    let y := upd stepState x
    if (view y).status.isFinal then some (.ended (view y).status (view y).fault, y)
    else match (view y).flags.vout with
      | some v => some (.yielded v, upd (fun s => s.setStatus .suspended) y)
      | none => resumeLoop view upd fuel y

/-- RUN and RESUME up to their loops: nothing on a halted or faulted engine (R93, R94), else the words are appended to
`inq`, or the whole command is rejected (R87, R89; log entry 20). -/
def drive {σ : Type} (view : σ → State) (upd : (State → State) → σ → σ) (loop : σ → Option (Response × σ))
    (words : List Word) (x : σ) : Option (Response × σ) :=
  if (view x).status.isFinal then some (.ended (view x).status (view x).fault, x)
  else match (view x).pushInputs words with
    | none => some (.rejected, x)
    | some s => loop (upd (fun _ => s) x)

/-- STEP with its result (R86). -/
def State.stepCommand (s : State) : Response × State :=
  if s.status.isFinal then (.ended s.status s.fault, s)
  else (.stepped (stepState s).flags (stepState s).status (stepState s).fault, stepState s)

/-- MEM_GET(i) (R98). -/
def State.memGet (s : State) (i : Word) : Response × State :=
  if validAddr s.params i then (.word (s.memRead i.toNat).1, (s.memRead i.toNat).2) else (.rejected, s)

/-- MEM_SET(i, v) (R98). -/
def State.memSet (s : State) (i v : Word) : Response × State :=
  if validAddr s.params i && representable s.params v then (.accepted, s.memWrite i.toNat v) else (.rejected, s)

/-- IN_PUSH(v) (R99). -/
def State.inPush (s : State) (v : Word) : Response × State :=
  match s.pushInputs [v] with
  | some t => (.accepted, t)
  | none => (.rejected, s)

/-- OUT_POP (R99). -/
def State.outPop (s : State) : Response × State :=
  match s.outq with
  | [] => (.empty, s)
  | v :: q => (.word v, s.setOutq q)

/-- LOAD on an engine that exists: it is rejected with no change, or gives the engine a new life under the same
parameters (R141, R144; log entry 11). -/
def State.loadCommand (s : State) (program : List Word) (inDev outDev : Option (List Word)) : Response × State :=
  match load s.params program inDev outDev with
  | some t => (.accepted, t)
  | none => (.rejected, s)

/-- One command on one engine with its own devices (R85). -/
def perform (fuel : Nat) (cmd : Command) (s : State) : Option (Response × State) :=
  match cmd with
  | .load program inDev outDev => some (s.loadCommand program inDev outDev)
  | .step => some s.stepCommand
  | .run seed => drive id (fun f => f) (runLoop id (fun f => f) fuel) seed s
  | .resume inputs => drive id (fun f => f) (resumeLoop id (fun f => f) fuel) inputs s
  | .inPush v => some (s.inPush v)
  | .outPop => some s.outPop
  | .memGet i => some (s.memGet i)
  | .memSet i v => some (s.memSet i v)
  | .readStatus => some (.report s.status s.fault s.pc s.rb s.len, s)

end Sys2Proof.Machine
end

