-- ==== Sys2Proof/Machine/Network.lean ====
section
/-! DEFINITION. Several engines and the FIFO devices the host wires between them (R99, R137, R143). A device is stored
once, under its number; an engine's `inq` and `outq` are the two devices it is wired to (log entry 14). -/

namespace Sys2Proof.Machine

/-- An engine of the network. The queues of `own` stay empty: what they hold stands in the device table. -/
structure Node where
  own : State
  inDev : Nat
  outDev : Nat
  deriving DecidableEq, Repr

/-- The engines in the order the host numbers them, and the devices' contents, oldest word first. -/
structure Network where
  nodes : List Node
  devices : List (List Word)
  deriving DecidableEq, Repr

/-- What a device holds; a number that names none holds nothing. -/
def Network.device (net : Network) (d : Nat) : List Word := net.devices.getD d []

/-- Engine state with its queues taken from the device table. -/
def Network.fill (net : Network) (n : Node) : State :=
  (n.own.setInq (net.device n.inDev)).setOutq (net.device n.outDev)

/-- What a device shared by an engine's input and output holds after one transaction on the engine: a transaction
changes one of the two queues at most, so the changed one stands. -/
def mergeQueues (before inAfter outAfter : List Word) : List Word :=
  if inAfter = before then outAfter else inAfter

/-- The device table after engine n's queues have become those of s. -/
def Network.store (net : Network) (n : Node) (s : State) : List (List Word) :=
  if n.inDev = n.outDev then net.devices.set n.inDev (mergeQueues (net.device n.inDev) s.inq s.outq)
  else (net.devices.set n.inDev s.inq).set n.outDev s.outq

/-- One transaction f on engine k. -/
def Network.update (k : Nat) (f : State → State) (net : Network) : Network :=
  match net.nodes[k]? with
  | none => net
  | some n =>
    { nodes := net.nodes.set k { n with own := ((f (net.fill n)).setInq []).setOutq [] }
      devices := net.store n (f (net.fill n)) }

/-- Engine k as its host sees it; a number that names none is an engine that has nothing. -/
def Network.view (k : Nat) (net : Network) : State :=
  match net.nodes[k]? with
  | none => State.reset
  | some n => net.fill n

/-- The device a LOAD wires: a supplied one by its number, else a new empty one (R141). -/
def wireDevice (devices : List (List Word)) (supplied : Option Nat) : Nat × List (List Word) :=
  match supplied with
  | some d => (d, devices)
  | none => (devices.length, devices ++ [[]])

/-- A supplied device is one of the table's. -/
def namesDevice (devices : List (List Word)) (supplied : Option Nat) : Bool :=
  match supplied with
  | some d => decide (d < devices.length)
  | none => true

/-- LOAD (R141, R143): the engine's new node and the device table with the devices it needed; `none` is a program that
does not fit (R144) or a number that names no device. -/
def Network.place (net : Network) (c : Config) (program : List Word) (inDev outDev : Option Nat) :
    Option (Node × List (List Word)) :=
  match load c program none none with
  | none => none
  | some s =>
    if namesDevice net.devices inDev && namesDevice net.devices outDev then
      let i := wireDevice net.devices inDev
      let o := wireDevice i.2 outDev
      some ({ own := s, inDev := i.1, outDev := o.1 }, o.2)
    else none

/-- LOAD of a new engine of the network. -/
def Network.create (net : Network) (c : Config) (program : List Word) (inDev outDev : Option Nat) : Option Network :=
  match net.place c program inDev outDev with
  | none => none
  | some (n, ds) => some { nodes := net.nodes ++ [n], devices := ds }

/-- LOAD of an engine that exists, under its own parameters. -/
def Network.reload (net : Network) (k : Nat) (program : List Word) (inDev outDev : Option Nat) : Option Network :=
  match net.nodes[k]? with
  | none => none
  | some n =>
    match net.place n.own.params program inDev outDev with
    | none => none
    | some (n', ds) => some { nodes := net.nodes.set k n', devices := ds }

/-- A command on engine k of the network (R85). LOAD's supplied devices are given by what they hold, so each is a device
of its own; `Network.reload` wires devices that are in the table. -/
def Network.perform (fuel k : Nat) (cmd : Command) (net : Network) : Option (Response × Network) :=
  let once (r : Response × State) : Option (Response × Network) := some (r.1, net.update k fun _ => r.2)
  let s := net.view k
  match cmd with
  | .load program inDev outDev =>
    let wired : Network := { net with devices := net.devices ++ [inDev.getD [], outDev.getD []] }
    match wired.reload k program (some net.devices.length) (some (net.devices.length + 1)) with
    | none => some (.rejected, net)
    | some net' => some (.accepted, net')
  | .step => once s.stepCommand
  | .run seed => drive (Network.view k) (Network.update k) (runLoop (Network.view k) (Network.update k) fuel) seed net
  | .resume inputs =>
    drive (Network.view k) (Network.update k) (resumeLoop (Network.view k) (Network.update k) fuel) inputs net
  | .inPush v => once (s.inPush v)
  | .outPop => once s.outPop
  | .memGet i => once (s.memGet i)
  | .memSet i v => once (s.memSet i v)
  | .readStatus => some (.report s.status s.fault s.pc s.rb s.len, net)

end Sys2Proof.Machine
end

