-- ==== Sys2Proof/Safety.lean ====
section
/-! DEFINITION. The terms claims are stated in: when an instruction's operands are ready, what it then does to each part
of the engine, and the engine's invariant. Written from the rules and not from the machine's own operations. -/

namespace Sys2Proof.Machine

/-- Some step can run: the status is `Ready`, `Running` or `Suspended` (R77). -/
def State.live (s : State) : Bool := !s.status.isFinal

/-- An address of mode 0 or mode 2 that the resolver accepts (R63, R65). -/
def State.addrReady (s : State) (p : Operand) : Bool :=
  match p.mode with
  | .position => validAddr s.params p.word
  | .relative => representable s.params (s.rb + p.word) && validAddr s.params (s.rb + p.word)
  | .immediate => false
  | .undefined _ => false

/-- A `val` operand that resolves without a fault (R61 to R65). -/
def State.valReady (s : State) (p : Operand) : Bool :=
  match p.mode with
  | .immediate => true
  | .position => s.addrReady p
  | .relative => s.addrReady p
  | .undefined _ => false

/-- The cell a position or relative operand names (R73). -/
def State.cellOf (s : State) (p : Operand) : Nat :=
  match p.mode with
  | .relative => (s.rb + p.word).toNat
  | .position => p.word.toNat
  | .immediate => p.word.toNat
  | .undefined _ => p.word.toNat

/-- The value of a `val` operand (R73). -/
def State.valueOf (s : State) (p : Operand) : Word :=
  match p.mode with
  | .immediate => p.word
  | .position => s.mem.read (s.cellOf p)
  | .relative => s.mem.read (s.cellOf p)
  | .undefined _ => 0

/-- How long memory must be for an operand's access (R37, R38): none for an immediate operand. -/
def State.reach (s : State) (p : Operand) : Nat :=
  match p.mode with
  | .immediate => 0
  | .position => s.cellOf p + 1
  | .relative => s.cellOf p + 1
  | .undefined _ => 0

/-- `len` after the fetch of an instruction of n parameters at `pc` and the accesses of the operands ps (R37, R41). -/
def State.lenAfter (s : State) (n : Nat) (ps : List Operand) : Nat :=
  ps.foldl (fun l p => max l (s.reach p)) (max s.len (s.pc + n + 1).toNat)

/-- The parameter cells `pc + 1` to `pc + n` can be fetched (R59). -/
def State.paramCellsReady (s : State) (n : Nat) : Bool :=
  (List.range n).all fun k => representable s.params (s.pc + (k + 1 : Nat)) && validAddr s.params (s.pc + (k + 1 : Nat))

/-- What an instruction stores and where: the one write of R41 (R100, R101, R104, R112, R113). -/
def State.stores (s : State) : Instr → Option (Nat × Word)
  | .add p1 p2 p3 => some (s.cellOf p3, s.valueOf p1 + s.valueOf p2)
  | .mul p1 p2 p3 => some (s.cellOf p3, s.valueOf p1 * s.valueOf p2)
  | .input p1 => some (s.cellOf p1, s.inq.headD 0)
  | .output _ => none
  | .jumpIfTrue _ _ => none
  | .jumpIfFalse _ _ => none
  | .lessThan p1 p2 p3 => some (s.cellOf p3, if s.valueOf p1 < s.valueOf p2 then 1 else 0)
  | .equals p1 p2 p3 => some (s.cellOf p3, if s.valueOf p1 = s.valueOf p2 then 1 else 0)
  | .adjustRelativeBase _ => none
  | .halt => none

/-- Decode aside, everything before the advance goes without a fault: operands resolve and the execute phase completes
(the exceptions of R100 to R118). -/
def State.executes (s : State) : Instr → Bool
  | .add p1 p2 p3 => s.valReady p1 && s.valReady p2 && s.addrReady p3 && representable s.params (s.valueOf p1 + s.valueOf p2)
  | .mul p1 p2 p3 => s.valReady p1 && s.valReady p2 && s.addrReady p3 && representable s.params (s.valueOf p1 * s.valueOf p2)
  | .input p1 => s.addrReady p1 && !s.inq.isEmpty
  | .output p1 => s.valReady p1 && fits s.params.outCapacity (s.outq.length + 1)
  | .jumpIfTrue p1 p2 => s.valReady p1 && s.valReady p2
  | .jumpIfFalse p1 p2 => s.valReady p1 && s.valReady p2
  | .lessThan p1 p2 p3 => s.valReady p1 && s.valReady p2 && s.addrReady p3
  | .equals p1 p2 p3 => s.valReady p1 && s.valReady p2 && s.addrReady p3
  | .adjustRelativeBase p1 => s.valReady p1 && representable s.params (s.rb + s.valueOf p1)
  | .halt => true

/-- The instruction is a jump that is taken (R108, R109). -/
def State.takesJump (s : State) : Instr → Bool
  | .jumpIfTrue p1 _ => s.valueOf p1 != 0
  | .jumpIfFalse p1 _ => s.valueOf p1 == 0
  | .add _ _ _ => false
  | .mul _ _ _ => false
  | .input _ => false
  | .output _ => false
  | .lessThan _ _ _ => false
  | .equals _ _ _ => false
  | .adjustRelativeBase _ => false
  | .halt => false

/-- The engine after a step from s that raised a fault (R84, R131); the flags are 0 (R78; log entry 4). -/
def State.faultedBy (s : State) (code : FaultCode) (param : Nat) (info : Word) : State :=
  { s with
    status := .faulted
    fault := { code := code, fpc := s.pc, raw := s.rawWord, param := param, info := info }
    flags := Flags.clear }

/-- What holds of every engine between commands. The last field is a fact about the parameters: the compares write 1
without a check, so a realization in which 1 is no word would not keep the others (log entry 12). -/
structure State.Inv (s : State) : Prop where
  /-- Memory is in its canonical form. -/
  canonical : s.mem.wf
  /-- Every cell at or above `len` reads as 0 (R35). -/
  zeroAbove : ∀ x ∈ s.mem, x.1 < s.len
  /-- Memory stays within `MEM_CELLS` (R40). -/
  withinCells : fits s.params.memCells s.len = true
  /-- Every cell holds a word (R7, R34). -/
  wordsInMem : ∀ x ∈ s.mem, representable s.params x.2 = true
  wordInPc : representable s.params s.pc = true
  wordInRb : representable s.params s.rb = true
  wordsInInq : ∀ v ∈ s.inq, representable s.params v = true
  wordsInOutq : ∀ v ∈ s.outq, representable s.params v = true
  /-- The FIFOs keep their capacities (R29, R30). -/
  inqFits : fits s.params.inCapacity s.inq.length = true
  outqFits : fits s.params.outCapacity s.outq.length = true
  /-- The record is empty unless the engine is faulted (R28). -/
  noFault : s.status ≠ .faulted → s.fault = FaultRecord.none
  /-- A faulted engine has a code, and `pc` still stands at the faulting instruction (R28, R84). -/
  faultCoded : s.status = .faulted → s.fault.code ≠ .noFault ∧ s.fault.fpc = s.pc ∧ s.fault.param ≤ 3
  /-- Before the first step the registers are as LOAD left them (R26, R142). -/
  readyFresh : s.status = .ready → s.pc = 0 ∧ s.rb = 0 ∧ s.flags = Flags.clear
  /-- A halted engine's last step set `halt` (R23). -/
  haltedByFlag : s.status = .halted → s.flags.halt = true
  /-- Only an output suspends (R90). -/
  suspendedByOutput : s.status = .suspended → s.flags.output = true
  /-- `v_out` exists exactly when `output` is set (R77). -/
  voutWithOutput : s.flags.vout.isSome = s.flags.output
  oneIsWord : representable s.params 1 = true

/-- A device a LOAD may be given without breaking the invariant: words only, within the capacity. -/
def deviceOk (c : Config) (capacity : Option Nat) (dev : Option (List Word)) : Bool :=
  (dev.getD []).all (representable c) && fits capacity (dev.getD []).length

/-- The devices a command brings are fit for the engine's parameters. -/
def Command.devicesOk (c : Config) : Command → Bool
  | .load _ inDev outDev => deviceOk c c.inCapacity inDev && deviceOk c c.outCapacity outDev
  | .step => true
  | .run _ => true
  | .resume _ => true
  | .inPush _ => true
  | .outPop => true
  | .memGet _ => true
  | .memSet _ _ => true
  | .readStatus => true

end Sys2Proof.Machine
end

