-- ==== Sys2Proof/Certificates/Slice0/Obligations.lean ====
section
/-! DEFINITION. The statements for the provers. -/

open Sys2Proof Sys2Proof.Machine

/-! ### Encoding -/

/-- Decode and encode agree (R51, R69): an encoded instruction decodes to itself and leaves what follows it, for every
mode a digit stands for and every parameter word; every well-formed instruction is such an instruction. -/
def Obligations.DecodeEncodeRoundTrip : Prop :=
  (∀ i : Instr, i.wellFormed = true → i.encodable = true) ∧
  ∀ (i : Instr) (rest : List Word), i.encodable = true → decode (encode i ++ rest) = .ok (i, rest)

/-- The other direction (R57, R69): what the decoder reads from a word is an instruction whose encoding is the word with
the digits above its parameters dropped, followed by the same cells. -/
def Obligations.EncodeOfDecodedWord : Prop :=
  ∀ (raw : Word) (cells rest : List Word) (i : Instr), decode (raw :: cells) = .ok (i, rest) →
    i.encodable = true ∧
    encode i ++ rest = ((raw.toNat % 10 ^ (i.opcode.paramCount + 2) : Nat) : Word) :: cells

/-- R57: the digits above the parameter count are ignored, whatever their value; R57's own examples. -/
def Obligations.HighDigitsIgnored : Prop :=
  (∀ (op : Opcode) (raw k : Nat) (cells : List Word), Opcode.ofId (raw % 100) = some op →
    decode (((raw + k * 10 ^ (op.paramCount + 2) : Nat) : Word) :: cells) = decode ((raw : Word) :: cells)) ∧
  (∀ cells : List Word, ∀ w ∈ [(99 : Word), 199, 1099, 12399], decode (w :: cells) = .ok (.halt, cells)) ∧
  (∀ (c : Word) (cells : List Word), ∀ w ∈ [(104 : Word), 90104],
    decode (w :: c :: cells) = .ok (.output { mode := .immediate, word := c }, cells))

/-- R54, R70: a word is refused as an unknown opcode exactly if it is negative or its identifier is not in the table. -/
def Obligations.UnknownOpcodesExactly : Prop :=
  ∀ (raw : Word) (cells : List Word),
    (∃ info, decode (raw :: cells) = .error (.unknownOpcode info)) ↔
      (raw < 0 ∨ raw.toNat % 100 ∉ [1, 2, 3, 4, 5, 6, 7, 8, 9, 99])

/-- R69: a raw word selects the well-formed instruction of an identifier exactly when it is not negative, its two low
digits are the identifier, and each mode digit is legal for the role of its parameter. -/
def Obligations.WordSelectsInstruction : Prop :=
  ∀ (raw c1 c2 c3 : Word) (op : Opcode),
    (∃ i rest, decode [raw, c1, c2, c3] = .ok (i, rest) ∧ i.opcode = op ∧ i.wellFormed = true) ↔
      (0 ≤ raw ∧ raw.toNat % 100 = op.id ∧
        ∀ k r, op.roles[k]? = some r → raw.toNat / 10 ^ (k + 2) % 10 ∈ r.legalDigits)

/-- The decoder's table of vectors, one word for each instruction (95_test_vectors.md 2.1). -/
def Obligations.SampleWordsDecode : Prop :=
  let pos (w : Word) : Operand := { mode := .position, word := w }
  let imm (w : Word) : Operand := { mode := .immediate, word := w }
  let rel (w : Word) : Operand := { mode := .relative, word := w }
  ∀ a b c : Word,
    decode [21101, a, b, c] = .ok (.add (imm a) (imm b) (rel c), []) ∧
    decode [1002, a, b, c] = .ok (.mul (pos a) (imm b) (pos c), []) ∧
    decode [203, a, b, c] = .ok (.input (rel a), [b, c]) ∧
    decode [104, a, b, c] = .ok (.output (imm a), [b, c]) ∧
    decode [1105, a, b, c] = .ok (.jumpIfTrue (imm a) (imm b), [c]) ∧
    decode [2206, a, b, c] = .ok (.jumpIfFalse (rel a) (rel b), [c]) ∧
    decode [22207, a, b, c] = .ok (.lessThan (rel a) (rel b) (rel c), []) ∧
    decode [1108, a, b, c] = .ok (.equals (imm a) (imm b) (pos c), []) ∧
    decode [209, a, b, c] = .ok (.adjustRelativeBase (rel a), [b, c]) ∧
    decode [99, a, b, c] = .ok (.halt, [a, b, c])

/-! ### The step -/

/-- A step of a live engine whose cells at `pc` can be fetched and decode to i is exec of i (R77). Nothing is added
around exec: the fetch's extension of memory is in exec itself. -/
def Obligations.StepRunsDecodedInstruction : Prop :=
  ∀ (s : State) (i : Instr) (rest : List Word), s.live = true → validAddr s.params s.pc = true →
    decode [s.mem.read s.pc.toNat, s.mem.read (s.pc + 1).toNat, s.mem.read (s.pc + 2).toNat,
      s.mem.read (s.pc + 3).toNat] = .ok (i, rest) →
    s.paramCellsReady i.opcode.paramCount = true → step s = exec i s

/-- R130 steps 1 and 3, at the step: an opcode fetch below 0 or at or beyond a finite memory, and a parameter cell whose
address is not representable or is beyond memory, fault with the record of R121, the first one met. -/
def Obligations.FetchFaultsInOrder : Prop :=
  ∀ s : State, s.live = true →
    (s.pc < 0 →
      step s = .next { s with status := .faulted, flags := Flags.clear,
                              fault := { code := .negativeAddress, fpc := s.pc, raw := 0, param := 0, info := s.pc } }) ∧
    (∀ m, s.params.memCells = some m → (m : Int) ≤ s.pc →
      step s = .next { s with status := .faulted, flags := Flags.clear,
                              fault := { code := .capacityExceeded, fpc := s.pc, raw := 0, param := 0, info := s.pc } }) ∧
    (∀ (op : Opcode) (k : Nat), validAddr s.params s.pc = true → 0 ≤ s.mem.read s.pc.toNat →
      (s.mem.read s.pc.toNat).toNat % 100 = op.id → k < op.paramCount → s.paramCellsReady k = true →
      (representable s.params (s.pc + (k + 1 : Nat)) = false →
        step s = .next { s with status := .faulted, flags := Flags.clear,
                                fault := { code := .valueOutOfRange, fpc := s.pc, raw := s.mem.read s.pc.toNat,
                                           param := k + 1, info := s.pc + (k + 1 : Nat) } }) ∧
      (∀ m, representable s.params (s.pc + (k + 1 : Nat)) = true → s.params.memCells = some m →
        (m : Int) ≤ s.pc + (k + 1 : Nat) →
        step s = .next { s with status := .faulted, flags := Flags.clear,
                                fault := { code := .capacityExceeded, fpc := s.pc, raw := s.mem.read s.pc.toNat,
                                           param := k + 1, info := s.pc + (k + 1 : Nat) } }))

/-- R55, R122: a word that is negative or has no identifier of the table faults, whatever the parameter cells are, with
the word itself or its identifier as `info` and `pc` as `fpc`. -/
def Obligations.UnknownOpcodeFaults : Prop :=
  ∀ s : State, s.live = true → validAddr s.params s.pc = true →
    let r := s.mem.read s.pc.toNat
    (r < 0 →
      step s = .next { s with status := .faulted, flags := Flags.clear,
                              fault := { code := .unknownOpcode, fpc := s.pc, raw := r, param := 0, info := r } }) ∧
    (0 ≤ r → r.toNat % 100 ∉ [1, 2, 3, 4, 5, 6, 7, 8, 9, 99] →
      step s = .next { s with status := .faulted, flags := Flags.clear,
                              fault := { code := .unknownOpcode, fpc := s.pc, raw := r, param := 0, info := r % 100 } })

/-- R152, R74: every instruction on every state, and every step, answers a next state, and one of R96's statuses. -/
def Obligations.EveryStepAnswersNext : Prop :=
  (∀ (i : Instr) (s : State), ∃ t, exec i s = .next t ∧
    (t.status = .running ∨ t.status = .halted ∨ t.status = .faulted)) ∧
  (∀ s : State, ∃ t, step s = .next t ∧
    (s.live = true → t.status = .running ∨ t.status = .halted ∨ t.status = .faulted))

/-- R84, R131: a step that faults changes `fault` and `status` alone (and clears the flags, log entry 4); the record
holds the `pc` of the step. -/
def Obligations.FaultCommitsNothing : Prop :=
  ∀ s t : State, s.live = true → step s = .next t → t.status = .faulted →
    t = { s with status := .faulted, fault := t.fault, flags := Flags.clear } ∧
      t.fault.fpc = s.pc ∧ t.fault.code ≠ .noFault

/-- When an instruction goes through: exactly when its operands resolve, its execute phase completes, and the advanced
`pc` is representable unless the advance is suppressed (R79, R82, R100 to R118). That an output also faults when `outq`
holds more words than its capacity, and not only when it holds as many (R105), is the model's choice (log entry 9). -/
def Obligations.CompletesExactly : Prop :=
  ∀ (i : Instr) (s t : State), exec i s = .next t →
    (t.status ≠ .faulted ↔
      (s.executes i = true ∧
        (i = .halt ∨ s.takesJump i = true ∨ representable s.params (s.pc + 1 + i.opcode.paramCount) = true)))

/-- The advance of each instruction (R79). -/
def Obligations.DefaultAdvance : Prop :=
  ∀ (i : Instr) (s t : State), exec i s = .next t → t.status ≠ .faulted → t.flags.jump = false → t.flags.halt = false →
    t.pc = s.pc + 1 + i.opcode.paramCount ∧
    t.pc = s.pc + (match i with
      | .add _ _ _ => 4
      | .mul _ _ _ => 4
      | .lessThan _ _ _ => 4
      | .equals _ _ _ => 4
      | .input _ => 2
      | .output _ => 2
      | .adjustRelativeBase _ => 2
      | .jumpIfTrue _ _ => 3
      | .jumpIfFalse _ _ => 3
      | .halt => 0)

/-- R82: an advance whose result is not representable faults with that result; in an unbounded realization every value is
representable. That an output's flag reads 0 after such a fault is the model's choice (log entry 4). -/
def Obligations.AdvanceOutOfRange : Prop :=
  (∀ (i : Instr) (s : State), s.executes i = true → i ≠ .halt → s.takesJump i = false →
    representable s.params (s.pc + 1 + i.opcode.paramCount) = false →
    exec i s = .next (s.faultedBy .valueOutOfRange 0 (s.pc + 1 + i.opcode.paramCount))) ∧
  (∀ c v, c.wordBits = none → representable c v = true)

/-- R22 to R24: the flags after a step without fault: `jump` exactly after a taken jump, `halt` exactly after halt,
`output` exactly after output, with the value written as `v_out`. -/
def Obligations.FlagsAfterStep : Prop :=
  ∀ (i : Instr) (s t : State), exec i s = .next t → t.status ≠ .faulted →
    (t.flags.jump = true ↔ s.takesJump i = true) ∧
    (t.flags.halt = true ↔ i = .halt) ∧
    (t.flags.output = true ↔ ∃ p, i = .output p) ∧
    (∀ p, i = .output p → t.flags.vout = some (s.valueOf p)) ∧
    ((∀ p, i ≠ .output p) → t.flags.vout = none)

/-- R25, R21: no instruction reads a flag, the status or the fault record: what they were changes nothing of a step's
result but the record a step without fault leaves alone. -/
def Obligations.InstructionsReadNoFlag : Prop :=
  ∀ (i : Instr) (s t : State) (f : Flags) (st : Status) (r : FaultRecord), exec i s = .next t →
    exec i { s with flags := f, status := st, fault := r } =
      .next (if t.status = .faulted then t else { t with fault := r })

/-- R36: `len` changes no value: a step from the same engine with another `len` differs in `len` alone, and `len` never
shrinks. -/
def Obligations.LengthIsInvisible : Prop :=
  ∀ (i : Instr) (s t : State) (l : Nat), exec i s = .next t →
    s.len ≤ t.len ∧ ∃ l', l ≤ l' ∧ exec i { s with len := l } = .next { t with len := l' }

/-- R19, R17: only adjust-relative-base writes `rb`; a step that does not jump or fault moves `pc` forward by 1 to 4 or,
for halt, not at all. -/
def Obligations.RegisterWriters : Prop :=
  ∀ (i : Instr) (s t : State), exec i s = .next t →
    ((∀ p, i ≠ .adjustRelativeBase p) → t.rb = s.rb) ∧
    (t.flags.jump = false →
      t.pc = s.pc ∧ (t.status = .faulted ∨ i = .halt) ∨ (s.pc + 1 < t.pc ∧ t.pc ≤ s.pc + 4))

/-- R33: the parameters are fixed for the life of an engine. -/
def Obligations.ParametersNeverChange : Prop :=
  (∀ s t : State, step s = .next t → t.params = s.params) ∧
  (∀ (fuel : Nat) (cmd : Command) (r : Response) (s t : State), perform fuel cmd s = some (r, t) → t.params = s.params)

/-! ### What each instruction does -/

/-- add (R100): the exact sum goes to the destination, computed from the values before the write; `pc` advances by 4. -/
def Obligations.AddStoresSum : Prop :=
  ∀ (p1 p2 p3 : Operand) (s : State), s.valReady p1 = true → s.valReady p2 = true → s.addrReady p3 = true →
    representable s.params (s.valueOf p1 + s.valueOf p2) = true → representable s.params (s.pc + 4) = true →
    exec (.add p1 p2 p3) s = .next { s with
      mem := s.mem.write (s.cellOf p3) (s.valueOf p1 + s.valueOf p2)
      len := s.lenAfter 3 [p1, p2, p3], pc := s.pc + 4, status := .running, flags := Flags.clear }

/-- mul (R101): the exact product goes to the destination; `pc` advances by 4. -/
def Obligations.MulStoresProduct : Prop :=
  ∀ (p1 p2 p3 : Operand) (s : State), s.valReady p1 = true → s.valReady p2 = true → s.addrReady p3 = true →
    representable s.params (s.valueOf p1 * s.valueOf p2) = true → representable s.params (s.pc + 4) = true →
    exec (.mul p1 p2 p3) s = .next { s with
      mem := s.mem.write (s.cellOf p3) (s.valueOf p1 * s.valueOf p2)
      len := s.lenAfter 3 [p1, p2, p3], pc := s.pc + 4, status := .running, flags := Flags.clear }

/-- input (R104): the oldest word of `inq` is popped into the destination; `pc` advances by 2. -/
def Obligations.InputPopsOldest : Prop :=
  ∀ (p1 : Operand) (v : Word) (q : List Word) (s : State), s.addrReady p1 = true → s.inq = v :: q →
    representable s.params (s.pc + 2) = true →
    exec (.input p1) s = .next { s with
      mem := s.mem.write (s.cellOf p1) v, inq := q
      len := s.lenAfter 1 [p1], pc := s.pc + 2, status := .running, flags := Flags.clear }

/-- output (R105): the operand's value is appended to `outq`, `output` is set with it as `v_out`; `pc` advances by 2. -/
def Obligations.OutputAppends : Prop :=
  ∀ (p1 : Operand) (s : State), s.valReady p1 = true → fits s.params.outCapacity (s.outq.length + 1) = true →
    representable s.params (s.pc + 2) = true →
    exec (.output p1) s = .next { s with
      outq := s.outq ++ [s.valueOf p1]
      len := s.lenAfter 1 [p1], pc := s.pc + 2, status := .running
      flags := { jump := false, halt := false, output := true, vout := some (s.valueOf p1) } }

/-- jump-if-true (R108, R110, R111): a condition that is not 0 loads `pc` with the target, which is not checked, and sets
`jump`; a condition of 0 advances by 3. -/
def Obligations.JumpIfTrueBranches : Prop :=
  ∀ (p1 p2 : Operand) (s : State), s.valReady p1 = true → s.valReady p2 = true →
    (s.valueOf p1 ≠ 0 →
      exec (.jumpIfTrue p1 p2) s = .next { s with
        len := s.lenAfter 2 [p1, p2], pc := s.valueOf p2, status := .running
        flags := { jump := true, halt := false, output := false, vout := none } }) ∧
    (s.valueOf p1 = 0 → representable s.params (s.pc + 3) = true →
      exec (.jumpIfTrue p1 p2) s = .next { s with
        len := s.lenAfter 2 [p1, p2], pc := s.pc + 3, status := .running, flags := Flags.clear })

/-- jump-if-false (R109, R110, R111): a condition of 0 loads `pc` with the target and sets `jump`; any other condition
advances by 3. -/
def Obligations.JumpIfFalseBranches : Prop :=
  ∀ (p1 p2 : Operand) (s : State), s.valReady p1 = true → s.valReady p2 = true →
    (s.valueOf p1 = 0 →
      exec (.jumpIfFalse p1 p2) s = .next { s with
        len := s.lenAfter 2 [p1, p2], pc := s.valueOf p2, status := .running
        flags := { jump := true, halt := false, output := false, vout := none } }) ∧
    (s.valueOf p1 ≠ 0 → representable s.params (s.pc + 3) = true →
      exec (.jumpIfFalse p1 p2) s = .next { s with
        len := s.lenAfter 2 [p1, p2], pc := s.pc + 3, status := .running, flags := Flags.clear })

/-- less-than (R112, R115): 1 to the destination if the first value is less than the second as signed integers, else 0;
`pc` advances by 4. The comparison itself cannot fault. -/
def Obligations.LessThanStoresOneOrZero : Prop :=
  ∀ (p1 p2 p3 : Operand) (s : State), s.valReady p1 = true → s.valReady p2 = true → s.addrReady p3 = true →
    representable s.params (s.pc + 4) = true →
    exec (.lessThan p1 p2 p3) s = .next { s with
      mem := s.mem.write (s.cellOf p3) (if s.valueOf p1 < s.valueOf p2 then 1 else 0)
      len := s.lenAfter 3 [p1, p2, p3], pc := s.pc + 4, status := .running, flags := Flags.clear }

/-- equals (R113): 1 to the destination if the values are equal, else 0; `pc` advances by 4. -/
def Obligations.EqualsStoresOneOrZero : Prop :=
  ∀ (p1 p2 p3 : Operand) (s : State), s.valReady p1 = true → s.valReady p2 = true → s.addrReady p3 = true →
    representable s.params (s.pc + 4) = true →
    exec (.equals p1 p2 p3) s = .next { s with
      mem := s.mem.write (s.cellOf p3) (if s.valueOf p1 = s.valueOf p2 then 1 else 0)
      len := s.lenAfter 3 [p1, p2, p3], pc := s.pc + 4, status := .running, flags := Flags.clear }

/-- adjust-relative-base (R116): `rb` grows by the operand's value, which a relative operand reads at the old `rb`; `pc`
advances by 2. -/
def Obligations.AdjustRelativeBaseAdds : Prop :=
  ∀ (p1 : Operand) (s : State), s.valReady p1 = true → representable s.params (s.rb + s.valueOf p1) = true →
    representable s.params (s.pc + 2) = true →
    exec (.adjustRelativeBase p1) s = .next { s with
      rb := s.rb + s.valueOf p1
      len := s.lenAfter 1 [p1], pc := s.pc + 2, status := .running, flags := Flags.clear }

/-- halt (R118, R81): `pc` stays, the status becomes `Halted`, `halt` is set; no operand, so no condition. -/
def Obligations.HaltStops : Prop :=
  ∀ s : State, exec .halt s = .next { s with
    len := max s.len (s.pc + 1).toNat, status := .halted
    flags := { jump := false, halt := true, output := false, vout := none } }

/-- R114: the compares write exactly 0 or exactly 1 and set no flag. -/
def Obligations.ComparesWriteZeroOrOne : Prop :=
  ∀ (i : Instr) (p1 p2 p3 : Operand) (s t : State), s.mem.wf → i = .lessThan p1 p2 p3 ∨ i = .equals p1 p2 p3 →
    exec i s = .next t → t.status ≠ .faulted →
    (t.mem.read (s.cellOf p3) = 0 ∨ t.mem.read (s.cellOf p3) = 1) ∧ t.flags = Flags.clear

/-- Frame of the instructions that store (add, mul, less-than, equals, input): when the step does not fault, the cell
stored to is the one the destination resolves to, every other cell reads as before, and the registers, the fault record
and the FIFOs are unchanged but for `pc` and input's `inq`. -/
def Obligations.StoringFrame : Prop :=
  ∀ (i : Instr) (p1 p2 p3 : Operand) (s t : State), exec i s = .next t → t.status ≠ .faulted →
    (i = .add p1 p2 p3 ∨ i = .mul p1 p2 p3 ∨ i = .lessThan p1 p2 p3 ∨ i = .equals p1 p2 p3 →
      (∀ a, s.resolveAddr 3 p3 = .ok a → ∀ b, b ≠ a → t.mem.read b = s.mem.read b) ∧
      t.rb = s.rb ∧ t.inq = s.inq ∧ t.outq = s.outq ∧ t.fault = s.fault ∧ t.params = s.params ∧
      t.flags = Flags.clear) ∧
    (i = .input p1 →
      (∀ a, s.resolveAddr 1 p1 = .ok a → ∀ b, b ≠ a → t.mem.read b = s.mem.read b) ∧
      t.rb = s.rb ∧ t.outq = s.outq ∧ t.fault = s.fault ∧ t.params = s.params ∧ t.flags = Flags.clear)

/-- Frame of the instructions that store nothing (output, the jumps, adjust-relative-base, halt): when the step does not
fault every cell reads as before, and the registers, the fault record and the FIFOs are unchanged but for `pc`, output's
`outq` and adjust-relative-base's `rb`. -/
def Obligations.NonStoringFrame : Prop :=
  ∀ (i : Instr) (p1 p2 : Operand) (s t : State), exec i s = .next t → t.status ≠ .faulted →
    (i = .output p1 ∨ i = .jumpIfTrue p1 p2 ∨ i = .jumpIfFalse p1 p2 ∨ i = .adjustRelativeBase p1 ∨ i = .halt →
      (∀ b, t.mem.read b = s.mem.read b) ∧ t.inq = s.inq ∧ t.fault = s.fault ∧ t.params = s.params ∧
      ((∀ p, i ≠ .output p) → t.outq = s.outq) ∧ ((∀ p, i ≠ .adjustRelativeBase p) → t.rb = s.rb) ∧
      (i = .halt → t.pc = s.pc))

/-! ### Faults -/

/-- R62, R123: an immediate destination faults `InvalidAddressingMode` with the parameter's index and its raw word, once
the operands before it resolve; input's, whether or not there is input (R104). -/
def Obligations.ImmediateDestinationFaults : Prop :=
  ∀ (p1 p2 p3 : Operand) (s : State),
    (p1.mode = .immediate → exec (.input p1) s = .next (s.faultedBy .invalidAddressingMode 1 p1.word)) ∧
    (∀ i, i = .add p1 p2 p3 ∨ i = .mul p1 p2 p3 ∨ i = .lessThan p1 p2 p3 ∨ i = .equals p1 p2 p3 →
      s.valReady p1 = true → s.valReady p2 = true → p3.mode = .immediate →
      exec i s = .next (s.faultedBy .invalidAddressingMode 3 p3.word))

/-- R64, R125: a mode digit 3 to 9 on any parameter, whatever its role, faults `UndefinedMode` with the index and the
digit, once the parameters before it resolve and whatever comes after (R66). -/
def Obligations.UndefinedModeFaults : Prop :=
  ∀ (i : Instr) (k d : Nat) (p : Operand) (s : State), i.operands[k]? = some p → p.mode = .undefined d →
    (∀ j q, j < k → i.operands[j]? = some q → s.valReady q = true) →
    exec i s = .next (s.faultedBy .undefinedMode (k + 1) d)

/-- R65: an address of mode 0 or mode 2, for either role, faults `NegativeAddress` below 0 and `CapacityExceeded` at or
beyond a finite memory, with the parameter's index and the address, once the parameters before it resolve. -/
def Obligations.InvalidAddressFaults : Prop :=
  ∀ (i : Instr) (k : Nat) (p : Operand) (a : Word) (s : State), i.operands[k]? = some p →
    (∀ j q, j < k → i.operands[j]? = some q → s.valReady q = true) →
    (p.mode = .position ∧ a = p.word ∨ p.mode = .relative ∧ a = s.rb + p.word ∧ representable s.params a = true) →
    (a < 0 → exec i s = .next (s.faultedBy .negativeAddress (k + 1) a)) ∧
    (∀ m, 0 ≤ a → s.params.memCells = some m → (m : Int) ≤ a →
      exec i s = .next (s.faultedBy .capacityExceeded (k + 1) a))

/-- R63: a relative address `rb + p` that is not representable faults `ValueOutOfRange` with the parameter's index and
the sum, once the parameters before it resolve. -/
def Obligations.RelativeSumOutOfRange : Prop :=
  ∀ (i : Instr) (k : Nat) (p : Operand) (s : State), i.operands[k]? = some p →
    (∀ j q, j < k → i.operands[j]? = some q → s.valReady q = true) →
    p.mode = .relative → representable s.params (s.rb + p.word) = false →
    exec i s = .next (s.faultedBy .valueOutOfRange (k + 1) (s.rb + p.word))

/-- R102: a sum, a product or a new relative base that is not representable faults with the exact result; nothing wraps. -/
def Obligations.ResultOutOfRange : Prop :=
  ∀ (p1 p2 p3 : Operand) (s : State), s.valReady p1 = true →
    (s.valReady p2 = true → s.addrReady p3 = true → representable s.params (s.valueOf p1 + s.valueOf p2) = false →
      exec (.add p1 p2 p3) s = .next (s.faultedBy .valueOutOfRange 0 (s.valueOf p1 + s.valueOf p2))) ∧
    (s.valReady p2 = true → s.addrReady p3 = true → representable s.params (s.valueOf p1 * s.valueOf p2) = false →
      exec (.mul p1 p2 p3) s = .next (s.faultedBy .valueOutOfRange 0 (s.valueOf p1 * s.valueOf p2))) ∧
    (representable s.params (s.rb + s.valueOf p1) = false →
      exec (.adjustRelativeBase p1) s = .next (s.faultedBy .valueOutOfRange 0 (s.rb + s.valueOf p1)))

/-- R104, R124: an input on an empty FIFO faults `InputExhausted`, once its destination resolves. -/
def Obligations.EmptyInputFaults : Prop :=
  ∀ (p1 : Operand) (s : State), s.addrReady p1 = true → s.inq = [] →
    exec (.input p1) s = .next (s.faultedBy .inputExhausted 0 0)

/-- R107: an output with the FIFO's capacity already queued faults `OutputOverflow` with the value not written; with no
capacity an output never faults on the FIFO. -/
def Obligations.FullOutputFaults : Prop :=
  (∀ (p1 : Operand) (c : Nat) (s : State), s.valReady p1 = true → s.params.outCapacity = some c → s.outq.length = c →
    exec (.output p1) s = .next (s.faultedBy .outputOverflow 0 (s.valueOf p1))) ∧
  (∀ (p1 : Operand) (s t : State), s.params.outCapacity = none → exec (.output p1) s = .next t →
    t.status = .faulted → t.fault.code ≠ .outputOverflow)

/-- R126 to R129: what each of the last four fault codes says of the engine. With the default parameters the last three
never occur. -/
def Obligations.FaultCausesAreReal : Prop :=
  ∀ s t : State, s.live = true → step s = .next t → t.status = .faulted →
    (t.fault.code = .negativeAddress → t.fault.info < 0) ∧
    (t.fault.code = .capacityExceeded → ∃ m, s.params.memCells = some m ∧ (m : Int) ≤ t.fault.info) ∧
    (t.fault.code = .valueOutOfRange → s.params.wordBits ≠ none ∧ representable s.params t.fault.info = false) ∧
    (t.fault.code = .outputOverflow → ∃ c, s.params.outCapacity = some c ∧ c ≤ s.outq.length)

/-- R121, the "raised by" column, after the decode: which instructions can raise which fault. -/
def Obligations.FaultsByInstruction : Prop :=
  ∀ (i : Instr) (s t : State), exec i s = .next t → t.status = .faulted →
    i ≠ .halt ∧ t.fault.code ≠ .unknownOpcode ∧
    (t.fault.code = .invalidAddressingMode → Role.addr ∈ i.opcode.roles) ∧
    (t.fault.code = .inputExhausted → ∃ p, i = .input p) ∧
    (t.fault.code = .outputOverflow → ∃ p, i = .output p)

/-! ### Memory -/

/-- R39: a cell at or above `len` reads 0, and again 0; the read extends `len` to hold it and changes no cell. -/
def Obligations.ReadBeyondLength : Prop :=
  ∀ (s : State) (a : Nat), s.Inv → s.len ≤ a →
    ∃ t, s.memRead a = (0, t) ∧ t.memRead a = (0, t) ∧ t.len = a + 1 ∧ ∀ b, t.mem.read b = s.mem.read b

/-- Two memories in canonical form that read alike are the same data. -/
def Obligations.MemoryIsWhatItReads : Prop :=
  ∀ m n : Memory, m.wf → n.wf → (∀ a, m.read a = n.read a) → m = n

/-- R49, R148: a word a step stores where `pc` then points is the word the next step decodes. -/
def Obligations.StoredWordIsDecoded : Prop :=
  ∀ (i j : Instr) (d : Nat) (v : Word) (rest : List Word) (s t : State), s.mem.wf → exec i s = .next t →
    t.status = .running → s.stores i = some (d, v) → t.pc = d → validAddr t.params t.pc = true →
    decode [v, t.mem.read (d + 1), t.mem.read (d + 2), t.mem.read (d + 3)] = .ok (j, rest) →
    t.paramCellsReady j.opcode.paramCount = true → step t = exec j t

/-- R117: a store to a relative offset, then an output from the same offset with `rb` unchanged between them, outputs
exactly what was written. -/
def Obligations.RelativeRoundTrip : Prop :=
  ∀ (i : Instr) (k v : Word) (d : Nat) (s t u : State), s.mem.wf →
    i.operands.getLast? = some { mode := .relative, word := k } → s.stores i = some (d, v) →
    exec i s = .next t → t.status ≠ .faulted →
    exec (.output { mode := .relative, word := k }) t = .next u → u.status ≠ .faulted →
    u.outq = t.outq ++ [v]

/-! ### Invariants -/

/-- Every step keeps the invariant, from every state that has it. That 1 is a word is part of the invariant: it concerns
the parameters alone (log entry 12). -/
def Obligations.StepKeepsInvariant : Prop :=
  ∀ s t : State, s.Inv → step s = .next t → t.Inv

/-- The engine after reset has the invariant. -/
def Obligations.ResetHasInvariant : Prop := State.reset.Inv

/-- Every host command keeps the invariant, given devices that hold words within their capacities (log entry 13). The
bound on the steps of RUN and RESUME is the model's (log entry 8). -/
def Obligations.CommandsKeepInvariant : Prop :=
  ∀ (fuel : Nat) (cmd : Command) (r : Response) (s t : State), s.Inv → cmd.devicesOk s.params = true →
    perform fuel cmd s = some (r, t) → t.Inv

/-! ### LOAD and the host's commands -/

/-- R142, R144: what LOAD leaves, with default devices and with supplied ones, and when it is rejected. With the default
parameters every list is accepted: every word is representable and every length fits. -/
def Obligations.LoadResets : Prop :=
  ∀ (c : Config) (program : List Word) (inDev outDev : Option (List Word)),
    ((∀ w ∈ program, representable c w = true) → fits c.memCells program.length = true →
      ∃ s, load c program inDev outDev = some s ∧ s.params = c ∧ (∀ i, s.mem.read i = program.getD i 0) ∧
        s.len = program.length ∧ s.pc = 0 ∧ s.rb = 0 ∧ s.status = .ready ∧ s.fault = FaultRecord.none ∧
        s.flags = Flags.clear ∧ s.inq = inDev.getD [] ∧ s.outq = outDev.getD []) ∧
    ((∃ w ∈ program, representable c w = false) ∨ fits c.memCells program.length = false →
      load c program inDev outDev = none)

/-- R145: the empty program has length 0, and its first step faults `UnknownOpcode` with nothing extended. A memory of no
cells at all has no cell 0 to fetch. -/
def Obligations.EmptyProgramFaults : Prop :=
  ∀ (c : Config) (inDev outDev : Option (List Word)), c.memCells ≠ some 0 →
    ∃ s, load c [] inDev outDev = some s ∧ s.len = 0 ∧
      step s = .next { s with status := .faulted,
                              fault := { code := .unknownOpcode, fpc := 0, raw := 0, param := 0, info := 0 } }

/-- R93, R94: on a halted or faulted engine STEP, RUN and RESUME change nothing and give back the status and the record;
the other commands still work, whatever the status is. -/
def Obligations.FinalEnginesStay : Prop :=
  ∀ (fuel : Nat) (s : State),
    (s.live = false → ∀ cmd, (cmd = .step ∨ (∃ seed, cmd = .run seed) ∨ ∃ inputs, cmd = .resume inputs) →
      perform fuel cmd s = some (.ended s.status s.fault, s)) ∧
    (∀ (st : Status) (cmd : Command), ((∃ v, cmd = .inPush v) ∨ cmd = .outPop ∨ (∃ a, cmd = .memGet a) ∨
        ∃ a v, cmd = .memSet a v) →
      perform fuel cmd { s with status := st } =
        (perform fuel cmd s).map fun r => (r.1, { r.2 with status := st })) ∧
    perform fuel .readStatus s = some (.report s.status s.fault s.pc s.rb s.len, s)

/-- R98: MEM_GET and MEM_SET, in every status. -/
def Obligations.HostMemoryAccess : Prop :=
  ∀ (fuel : Nat) (a v : Word) (s : State),
    (validAddr s.params a = true →
      perform fuel (.memGet a) s = some (.word (s.mem.read a.toNat), { s with len := max s.len (a.toNat + 1) })) ∧
    (validAddr s.params a = false → perform fuel (.memGet a) s = some (.rejected, s)) ∧
    (validAddr s.params a = true → representable s.params v = true → s.mem.wf →
      ∃ t, perform fuel (.memSet a v) s = some (.accepted, t) ∧
        t = { s with mem := t.mem, len := max s.len (a.toNat + 1) } ∧
        ∀ b, t.mem.read b = if b = a.toNat then v else s.mem.read b) ∧
    (validAddr s.params a = false ∨ representable s.params v = false →
      perform fuel (.memSet a v) s = some (.rejected, s))

/-- R99: IN_PUSH appends at the tail unless the FIFO is full, OUT_POP takes the head unless the FIFO is empty. -/
def Obligations.FifoCommands : Prop :=
  ∀ (fuel : Nat) (v : Word) (s : State),
    (representable s.params v = true → fits s.params.inCapacity (s.inq.length + 1) = true →
      perform fuel (.inPush v) s = some (.accepted, { s with inq := s.inq ++ [v] })) ∧
    (∀ c, s.params.inCapacity = some c → s.inq.length = c → perform fuel (.inPush v) s = some (.rejected, s)) ∧
    (∀ q, s.outq = v :: q → perform fuel .outPop s = some (.word v, { s with outq := q })) ∧
    (s.outq = [] → perform fuel .outPop s = some (.empty, s))

/-- R86: STEP on a live engine runs one step and gives back its flags, the value written, and the new status; it does
not suspend. -/
def Obligations.StepCommandReports : Prop :=
  ∀ (fuel : Nat) (s t : State), s.live = true → step s = .next t →
    perform fuel .step s = some (.stepped t.flags t.status t.fault, t) ∧ t.status ≠ .suspended

/-- R87, R97: a RUN that returns has been rejected, or has ended `Halted` or `Faulted` and says so; and the bound on its
steps (the model's, log entry 8) does not matter: a larger one gives the same result. That a rejected RUN runs no step,
changes nothing and answers that it was rejected is the model's choice (log entry 20). -/
def Obligations.RunEndsFinal : Prop :=
  ∀ (fuel : Nat) (seed : List Word) (r : Response) (s t : State), perform fuel (.run seed) s = some (r, t) →
    (r = .rejected ∧ t = s ∨ r = .ended t.status t.fault ∧ t.live = false) ∧
    ∀ more, perform (fuel + more) (.run seed) s = some (r, t)

/-- R87, R89, R83: RUN and RESUME are their steps. With the words queued first, the command from s takes one step; where
that step ends the engine, it reports so; where RESUME's step was an output, it suspends and gives the word back; else the
command goes on from the engine after the step, with no further words. The bound on the steps is the model's (log
entry 8). -/
def Obligations.RunAndResumeUnfold : Prop :=
  ∀ (fuel : Nat) (words : List Word) (s s' t : State), s.live = true →
    s.pushInputs words = some s' → step s' = .next t →
    s' = { s with inq := s.inq ++ words } ∧
    (t.live = false →
      perform (fuel + 1) (.run words) s = some (.ended t.status t.fault, t) ∧
      perform (fuel + 1) (.resume words) s = some (.ended t.status t.fault, t)) ∧
    (t.live = true → perform (fuel + 1) (.run words) s = perform fuel (.run []) t) ∧
    (∀ v, t.flags.vout = some v →
      perform (fuel + 1) (.resume words) s = some (.yielded v, { t with status := .suspended })) ∧
    (t.live = true → t.flags.vout = none → perform (fuel + 1) (.resume words) s = perform fuel (.resume []) t)

/-- R89 to R91: what a RESUME that returns has done. A yield has just been appended to `outq` and stays there, the engine
is suspended; else the engine has ended and says so, or the inputs were rejected. The bound on its steps (the model's, log
entry 8) does not matter. That a rejected RESUME runs no step, changes nothing and answers that it was rejected is the
model's choice (log entry 20). -/
def Obligations.ResumeReturns : Prop :=
  ∀ (fuel : Nat) (inputs : List Word) (r : Response) (s t : State), perform fuel (.resume inputs) s = some (r, t) →
    (r = .rejected ∧ t = s ∨ r = .ended t.status t.fault ∧ t.live = false ∨
      ∃ v, r = .yielded v ∧ t.status = .suspended ∧ t.flags.output = true ∧ t.outq.getLast? = some v) ∧
    ∀ more, perform (fuel + more) (.resume inputs) s = some (r, t)

/-- R95, R96, R139: the status after each command: only RESUME suspends, and the commands that run no step leave the
status alone. That a rejected LOAD leaves the whole engine alone is the model's choice (log entry 11), and so is that a
rejected RUN or RESUME runs no step and changes nothing (log entry 20). -/
def Obligations.StatusTransitions : Prop :=
  ∀ (fuel : Nat) (cmd : Command) (r : Response) (s t : State), perform fuel cmd s = some (r, t) →
    match cmd with
    | .load _ _ _ => r = .accepted ∧ t.status = .ready ∨ r = .rejected ∧ t = s
    | .step => s.live = true → t.status = .running ∨ t.status = .halted ∨ t.status = .faulted
    | .run _ => s.live = true → r = .rejected ∧ t = s ∨ t.status = .halted ∨ t.status = .faulted
    | .resume _ => s.live = true →
        r = .rejected ∧ t = s ∨ t.status = .suspended ∨ t.status = .halted ∨ t.status = .faulted
    | .inPush _ => t.status = s.status
    | .outPop => t.status = s.status
    | .memGet _ => t.status = s.status
    | .memSet _ _ => t.status = s.status
    | .readStatus => t = s

/-! ### Several engines -/

/-- R137, R50: a command on one engine leaves every other engine's own state and wiring alone, and every device that is
not one of its two. -/
def Obligations.EnginesAreIsolated : Prop :=
  ∀ (fuel k : Nat) (cmd : Command) (r : Response) (n : Node) (net net' : Network), net.nodes[k]? = some n →
    net.perform fuel k cmd = some (r, net') →
    (∀ j, j ≠ k → net'.nodes[j]? = net.nodes[j]?) ∧
    (∀ d, d < net.devices.length → d ≠ n.inDev → d ≠ n.outDev → net'.device d = net.device d)

/-- R99, R137: where the output device of engine j is the input device of engine k, a word j outputs comes to k's input
behind the words already queued. -/
def Obligations.SharedFifoKeepsOrder : Prop :=
  ∀ (j k : Nat) (nj nk : Node) (v : Word) (net : Network) (t : State), j ≠ k →
    net.nodes[j]? = some nj → net.nodes[k]? = some nk → nj.outDev = nk.inDev →
    nj.outDev < net.devices.length → (net.view j).live = true → step (net.view j) = .next t → t.flags.vout = some v →
    ((net.update j stepState).view k).inq = (net.view k).inq ++ [v]
end

