-- ==== Sys2Proof/Laws/Memory.lean ====
section
/-! SUPPORT. Memory: reads after writes, and the canonical form. -/

namespace Sys2Proof.Machine

@[simp] theorem Memory.read_nil (a : Nat) : Memory.read [] a = 0 := rfl

theorem Memory.read_cons (b : Nat) (w : Word) (m : Memory) (a : Nat) :
    Memory.read ((b, w) :: m) a = if a = b then w else Memory.read m a := rfl

/-- A cell below every listed one reads as 0. -/
theorem Memory.read_of_below {m : Memory} {a : Nat} (h : ∀ x ∈ m, a < x.1) : m.read a = 0 := by
  induction m with
  | nil => rfl
  | cons x m ih =>
    obtain ⟨b, w⟩ := x
    have hb : a < b := h (b, w) (by simp)
    rw [Memory.read_cons, if_neg (by omega)]
    exact ih fun x hx => h x (by simp [hx])

/-- A cell that no entry names reads as 0 (R35). -/
theorem Memory.read_of_unlisted {m : Memory} {a : Nat} (h : ∀ x ∈ m, x.1 ≠ a) : m.read a = 0 := by
  induction m with
  | nil => rfl
  | cons x m ih =>
    obtain ⟨b, w⟩ := x
    have hb : b ≠ a := h (b, w) (by simp)
    rw [Memory.read_cons, if_neg (by omega)]
    exact ih fun x hx => h x (by simp [hx])

/-- A word read is 0 or is listed at its address. -/
theorem Memory.read_mem (m : Memory) (a : Nat) : m.read a = 0 ∨ (a, m.read a) ∈ m := by
  induction m with
  | nil => exact .inl rfl
  | cons x m ih =>
    obtain ⟨b, w⟩ := x
    rw [Memory.read_cons]
    by_cases hab : a = b
    · simp [hab]
    · rw [if_neg hab]
      exact ih.imp id fun h => by simp [h]

/-- Reading the word just put in front. -/
theorem Memory.read_put_same {m : Memory} {a : Nat} (h : ∀ x ∈ m, a < x.1) (v : Word) :
    (Memory.put a v m).read a = v := by
  unfold Memory.put
  split
  · rw [Memory.read_of_below h]; simp_all
  · simp [Memory.read_cons]

theorem Memory.read_put_other {a b : Nat} (m : Memory) (v : Word) (h : b ≠ a) :
    (Memory.put a v m).read b = m.read b := by
  unfold Memory.put
  split <;> simp [Memory.read_cons, h]

theorem Memory.mem_put {a : Nat} {v : Word} {m : Memory} {x : Nat × Word} (h : x ∈ Memory.put a v m) :
    x = (a, v) ∧ v ≠ 0 ∨ x ∈ m := by
  unfold Memory.put at h
  split at h
  · exact .inr h
  · exact (List.mem_cons.mp h).imp (fun e => ⟨e, ‹_›⟩) id

theorem Memory.wf_put {m : Memory} {a : Nat} {v : Word} (hm : m.wf) (h : ∀ x ∈ m, a < x.1) :
    (Memory.put a v m).wf := by
  unfold Memory.put
  split
  · exact hm
  · refine ⟨List.pairwise_cons.mpr ⟨h, hm.1⟩, ?_⟩
    simpa using ⟨‹_›, by simpa using hm.2⟩

/-- The tail of a canonical memory, with its head below it. -/
theorem Memory.wf_cons {b : Nat} {w : Word} {m : Memory} (h : Memory.wf ((b, w) :: m)) :
    (∀ x ∈ m, b < x.1) ∧ w ≠ 0 ∧ m.wf := by
  obtain ⟨hp, hz⟩ := h
  rw [List.pairwise_cons] at hp
  exact ⟨hp.1, hz (b, w) (by simp), hp.2, fun x hx => hz x (by simp [hx])⟩

/-- What a write leaves listed: the written word, or what was listed before. -/
theorem Memory.mem_write {m : Memory} {a : Nat} {v : Word} {x : Nat × Word} (h : x ∈ m.write a v) :
    x = (a, v) ∧ v ≠ 0 ∨ x ∈ m := by
  induction m with
  | nil => exact Memory.mem_put h
  | cons y m ih =>
    obtain ⟨b, w⟩ := y
    unfold Memory.write at h
    split at h
    · exact Memory.mem_put h
    · split at h
      · exact (Memory.mem_put h).imp id fun h => by simp [h]
      · rcases List.mem_cons.mp h with rfl | h
        · exact .inr (by simp)
        · exact (ih h).imp id fun h => by simp [h]

/-- Every write keeps the canonical form. -/
theorem Memory.wf_write {m : Memory} (hm : m.wf) (a : Nat) (v : Word) : (m.write a v).wf := by
  induction m with
  | nil => exact Memory.wf_put hm (by simp)
  | cons y m ih =>
    obtain ⟨b, w⟩ := y
    obtain ⟨hlt, hw, htail⟩ := Memory.wf_cons hm
    unfold Memory.write
    split
    · refine Memory.wf_put hm fun x hx => ?_
      rcases List.mem_cons.mp hx with rfl | hx
      · assumption
      · have := hlt x hx; omega
    · split
      · subst_vars
        exact Memory.wf_put htail hlt
      · have hrest := ih htail
        refine ⟨List.pairwise_cons.mpr ⟨fun x hx => ?_, hrest.1⟩, ?_⟩
        · rcases Memory.mem_write hx with ⟨rfl, -⟩ | hx
          · show b < a
            omega
          · exact hlt x hx
        · simpa using ⟨hw, by simpa using hrest.2⟩

/-- Reading what was just written. -/
theorem Memory.read_write_same {m : Memory} (hm : m.wf) (a : Nat) (v : Word) : (m.write a v).read a = v := by
  induction m with
  | nil => exact Memory.read_put_same (by simp) v
  | cons y m ih =>
    obtain ⟨b, w⟩ := y
    obtain ⟨hlt, hw, htail⟩ := Memory.wf_cons hm
    unfold Memory.write
    split
    · refine Memory.read_put_same (fun x hx => ?_) v
      rcases List.mem_cons.mp hx with rfl | hx
      · assumption
      · have := hlt x hx; omega
    · split
      · subst_vars
        exact Memory.read_put_same hlt v
      · rw [Memory.read_cons, if_neg ‹_›, ih htail]

/-- A write leaves every other cell alone. -/
theorem Memory.read_write_other {a b : Nat} (m : Memory) (v : Word) (h : b ≠ a) :
    (m.write a v).read b = m.read b := by
  induction m with
  | nil => exact Memory.read_put_other [] v h
  | cons y m ih =>
    obtain ⟨c, w⟩ := y
    unfold Memory.write
    split
    · exact Memory.read_put_other _ v h
    · split
      · subst_vars
        rw [Memory.read_put_other _ v h, Memory.read_cons, if_neg h]
      · rw [Memory.read_cons, Memory.read_cons, ih]

theorem Memory.mem_ofWords {vs : List Word} {a : Nat} {x : Nat × Word} (h : x ∈ Memory.ofWords a vs) :
    a ≤ x.1 ∧ x.1 < a + vs.length ∧ x.2 ∈ vs := by
  induction vs generalizing a with
  | nil => simp [Memory.ofWords] at h
  | cons v vs ih =>
    rcases Memory.mem_put h with ⟨rfl, -⟩ | h
    · simp
    · have := ih h
      simp only [List.length_cons, List.mem_cons]
      exact ⟨by omega, by omega, .inr this.2.2⟩

/-- A program is loaded in the canonical form. -/
theorem Memory.wf_ofWords (a : Nat) (vs : List Word) : (Memory.ofWords a vs).wf := by
  induction vs generalizing a with
  | nil => simp [Memory.ofWords, Memory.wf]
  | cons v vs ih => exact Memory.wf_put (ih (a + 1)) fun x hx => by have := Memory.mem_ofWords hx; omega

/-- A loaded program reads back (R141). -/
theorem Memory.read_ofWords (a : Nat) (vs : List Word) (i : Nat) :
    (Memory.ofWords a vs).read (a + i) = vs.getD i 0 := by
  induction vs generalizing a i with
  | nil => simp [Memory.ofWords]
  | cons v vs ih =>
    have hlt : ∀ x ∈ Memory.ofWords (a + 1) vs, a < x.1 := fun x hx => by have := Memory.mem_ofWords hx; omega
    cases i with
    | zero => simpa [Memory.ofWords] using Memory.read_put_same hlt v
    | succ i =>
      rw [Memory.ofWords, Memory.read_put_other _ _ (by omega), show a + (i + 1) = a + 1 + i by omega, ih]
      simp

end Sys2Proof.Machine
end

