-- ==== Sys2Proof/Laws/State.lean ====
section
/-! SUPPORT. What each named update of State does to each field, so that no proof unfolds a record update. -/

namespace Sys2Proof.Machine

variable (s : State)

/-! growTo -/

@[simp] theorem State.growTo_params (n : Nat) : (s.growTo n).params = s.params := rfl
@[simp] theorem State.growTo_mem (n : Nat) : (s.growTo n).mem = s.mem := rfl
@[simp] theorem State.growTo_len (n : Nat) : (s.growTo n).len = max s.len n := rfl
@[simp] theorem State.growTo_pc (n : Nat) : (s.growTo n).pc = s.pc := rfl
@[simp] theorem State.growTo_rb (n : Nat) : (s.growTo n).rb = s.rb := rfl
@[simp] theorem State.growTo_status (n : Nat) : (s.growTo n).status = s.status := rfl
@[simp] theorem State.growTo_fault (n : Nat) : (s.growTo n).fault = s.fault := rfl
@[simp] theorem State.growTo_inq (n : Nat) : (s.growTo n).inq = s.inq := rfl
@[simp] theorem State.growTo_outq (n : Nat) : (s.growTo n).outq = s.outq := rfl
@[simp] theorem State.growTo_flags (n : Nat) : (s.growTo n).flags = s.flags := rfl

/-! memWrite -/

@[simp] theorem State.memWrite_params (a : Nat) (v : Word) : (s.memWrite a v).params = s.params := rfl
@[simp] theorem State.memWrite_mem (a : Nat) (v : Word) : (s.memWrite a v).mem = s.mem.write a v := rfl
@[simp] theorem State.memWrite_len (a : Nat) (v : Word) : (s.memWrite a v).len = max s.len (a + 1) := rfl
@[simp] theorem State.memWrite_pc (a : Nat) (v : Word) : (s.memWrite a v).pc = s.pc := rfl
@[simp] theorem State.memWrite_rb (a : Nat) (v : Word) : (s.memWrite a v).rb = s.rb := rfl
@[simp] theorem State.memWrite_status (a : Nat) (v : Word) : (s.memWrite a v).status = s.status := rfl
@[simp] theorem State.memWrite_fault (a : Nat) (v : Word) : (s.memWrite a v).fault = s.fault := rfl
@[simp] theorem State.memWrite_inq (a : Nat) (v : Word) : (s.memWrite a v).inq = s.inq := rfl
@[simp] theorem State.memWrite_outq (a : Nat) (v : Word) : (s.memWrite a v).outq = s.outq := rfl
@[simp] theorem State.memWrite_flags (a : Nat) (v : Word) : (s.memWrite a v).flags = s.flags := rfl

/-! setPc -/

@[simp] theorem State.setPc_params (v : Word) : (s.setPc v).params = s.params := rfl
@[simp] theorem State.setPc_mem (v : Word) : (s.setPc v).mem = s.mem := rfl
@[simp] theorem State.setPc_len (v : Word) : (s.setPc v).len = s.len := rfl
@[simp] theorem State.setPc_pc (v : Word) : (s.setPc v).pc = v := rfl
@[simp] theorem State.setPc_rb (v : Word) : (s.setPc v).rb = s.rb := rfl
@[simp] theorem State.setPc_status (v : Word) : (s.setPc v).status = s.status := rfl
@[simp] theorem State.setPc_fault (v : Word) : (s.setPc v).fault = s.fault := rfl
@[simp] theorem State.setPc_inq (v : Word) : (s.setPc v).inq = s.inq := rfl
@[simp] theorem State.setPc_outq (v : Word) : (s.setPc v).outq = s.outq := rfl
@[simp] theorem State.setPc_flags (v : Word) : (s.setPc v).flags = s.flags := rfl

/-! setRb -/

@[simp] theorem State.setRb_params (v : Word) : (s.setRb v).params = s.params := rfl
@[simp] theorem State.setRb_mem (v : Word) : (s.setRb v).mem = s.mem := rfl
@[simp] theorem State.setRb_len (v : Word) : (s.setRb v).len = s.len := rfl
@[simp] theorem State.setRb_pc (v : Word) : (s.setRb v).pc = s.pc := rfl
@[simp] theorem State.setRb_rb (v : Word) : (s.setRb v).rb = v := rfl
@[simp] theorem State.setRb_status (v : Word) : (s.setRb v).status = s.status := rfl
@[simp] theorem State.setRb_fault (v : Word) : (s.setRb v).fault = s.fault := rfl
@[simp] theorem State.setRb_inq (v : Word) : (s.setRb v).inq = s.inq := rfl
@[simp] theorem State.setRb_outq (v : Word) : (s.setRb v).outq = s.outq := rfl
@[simp] theorem State.setRb_flags (v : Word) : (s.setRb v).flags = s.flags := rfl

/-! setFlags -/

@[simp] theorem State.setFlags_params (f : Flags) : (s.setFlags f).params = s.params := rfl
@[simp] theorem State.setFlags_mem (f : Flags) : (s.setFlags f).mem = s.mem := rfl
@[simp] theorem State.setFlags_len (f : Flags) : (s.setFlags f).len = s.len := rfl
@[simp] theorem State.setFlags_pc (f : Flags) : (s.setFlags f).pc = s.pc := rfl
@[simp] theorem State.setFlags_rb (f : Flags) : (s.setFlags f).rb = s.rb := rfl
@[simp] theorem State.setFlags_status (f : Flags) : (s.setFlags f).status = s.status := rfl
@[simp] theorem State.setFlags_fault (f : Flags) : (s.setFlags f).fault = s.fault := rfl
@[simp] theorem State.setFlags_inq (f : Flags) : (s.setFlags f).inq = s.inq := rfl
@[simp] theorem State.setFlags_outq (f : Flags) : (s.setFlags f).outq = s.outq := rfl
@[simp] theorem State.setFlags_flags (f : Flags) : (s.setFlags f).flags = f := rfl

/-! setStatus -/

@[simp] theorem State.setStatus_params (v : Status) : (s.setStatus v).params = s.params := rfl
@[simp] theorem State.setStatus_mem (v : Status) : (s.setStatus v).mem = s.mem := rfl
@[simp] theorem State.setStatus_len (v : Status) : (s.setStatus v).len = s.len := rfl
@[simp] theorem State.setStatus_pc (v : Status) : (s.setStatus v).pc = s.pc := rfl
@[simp] theorem State.setStatus_rb (v : Status) : (s.setStatus v).rb = s.rb := rfl
@[simp] theorem State.setStatus_status (v : Status) : (s.setStatus v).status = v := rfl
@[simp] theorem State.setStatus_fault (v : Status) : (s.setStatus v).fault = s.fault := rfl
@[simp] theorem State.setStatus_inq (v : Status) : (s.setStatus v).inq = s.inq := rfl
@[simp] theorem State.setStatus_outq (v : Status) : (s.setStatus v).outq = s.outq := rfl
@[simp] theorem State.setStatus_flags (v : Status) : (s.setStatus v).flags = s.flags := rfl

/-! setInq -/

@[simp] theorem State.setInq_params (q : List Word) : (s.setInq q).params = s.params := rfl
@[simp] theorem State.setInq_mem (q : List Word) : (s.setInq q).mem = s.mem := rfl
@[simp] theorem State.setInq_len (q : List Word) : (s.setInq q).len = s.len := rfl
@[simp] theorem State.setInq_pc (q : List Word) : (s.setInq q).pc = s.pc := rfl
@[simp] theorem State.setInq_rb (q : List Word) : (s.setInq q).rb = s.rb := rfl
@[simp] theorem State.setInq_status (q : List Word) : (s.setInq q).status = s.status := rfl
@[simp] theorem State.setInq_fault (q : List Word) : (s.setInq q).fault = s.fault := rfl
@[simp] theorem State.setInq_inq (q : List Word) : (s.setInq q).inq = q := rfl
@[simp] theorem State.setInq_outq (q : List Word) : (s.setInq q).outq = s.outq := rfl
@[simp] theorem State.setInq_flags (q : List Word) : (s.setInq q).flags = s.flags := rfl

/-! setOutq -/

@[simp] theorem State.setOutq_params (q : List Word) : (s.setOutq q).params = s.params := rfl
@[simp] theorem State.setOutq_mem (q : List Word) : (s.setOutq q).mem = s.mem := rfl
@[simp] theorem State.setOutq_len (q : List Word) : (s.setOutq q).len = s.len := rfl
@[simp] theorem State.setOutq_pc (q : List Word) : (s.setOutq q).pc = s.pc := rfl
@[simp] theorem State.setOutq_rb (q : List Word) : (s.setOutq q).rb = s.rb := rfl
@[simp] theorem State.setOutq_status (q : List Word) : (s.setOutq q).status = s.status := rfl
@[simp] theorem State.setOutq_fault (q : List Word) : (s.setOutq q).fault = s.fault := rfl
@[simp] theorem State.setOutq_inq (q : List Word) : (s.setOutq q).inq = s.inq := rfl
@[simp] theorem State.setOutq_outq (q : List Word) : (s.setOutq q).outq = q := rfl
@[simp] theorem State.setOutq_flags (q : List Word) : (s.setOutq q).flags = s.flags := rfl

/-! startStep -/

@[simp] theorem State.startStep_params (n : Nat) : (s.startStep n).params = s.params := rfl
@[simp] theorem State.startStep_mem (n : Nat) : (s.startStep n).mem = s.mem := rfl
@[simp] theorem State.startStep_len (n : Nat) : (s.startStep n).len = max s.len (s.pc + n + 1).toNat := rfl
@[simp] theorem State.startStep_pc (n : Nat) : (s.startStep n).pc = s.pc := rfl
@[simp] theorem State.startStep_rb (n : Nat) : (s.startStep n).rb = s.rb := rfl
@[simp] theorem State.startStep_status (n : Nat) : (s.startStep n).status = s.status := rfl
@[simp] theorem State.startStep_fault (n : Nat) : (s.startStep n).fault = s.fault := rfl
@[simp] theorem State.startStep_inq (n : Nat) : (s.startStep n).inq = s.inq := rfl
@[simp] theorem State.startStep_outq (n : Nat) : (s.startStep n).outq = s.outq := rfl
@[simp] theorem State.startStep_flags (n : Nat) : (s.startStep n).flags = Flags.clear := rfl

/-! takeFault -/

@[simp] theorem State.takeFault_params (e : Raised) : (s.takeFault e).params = s.params := rfl
@[simp] theorem State.takeFault_mem (e : Raised) : (s.takeFault e).mem = s.mem := rfl
@[simp] theorem State.takeFault_len (e : Raised) : (s.takeFault e).len = s.len := rfl
@[simp] theorem State.takeFault_pc (e : Raised) : (s.takeFault e).pc = s.pc := rfl
@[simp] theorem State.takeFault_rb (e : Raised) : (s.takeFault e).rb = s.rb := rfl
@[simp] theorem State.takeFault_status (e : Raised) : (s.takeFault e).status = .faulted := rfl
@[simp] theorem State.takeFault_fault (e : Raised) : (s.takeFault e).fault = { code := e.code, fpc := s.pc, raw := s.rawWord, param := e.param, info := e.info } := rfl
@[simp] theorem State.takeFault_inq (e : Raised) : (s.takeFault e).inq = s.inq := rfl
@[simp] theorem State.takeFault_outq (e : Raised) : (s.takeFault e).outq = s.outq := rfl
@[simp] theorem State.takeFault_flags (e : Raised) : (s.takeFault e).flags = Flags.clear := rfl

/-! settle -/

@[simp] theorem State.settle_params : (s.settle).params = s.params := rfl
@[simp] theorem State.settle_mem : (s.settle).mem = s.mem := rfl
@[simp] theorem State.settle_len : (s.settle).len = s.len := rfl
@[simp] theorem State.settle_pc : (s.settle).pc = s.pc := rfl
@[simp] theorem State.settle_rb : (s.settle).rb = s.rb := rfl
@[simp] theorem State.settle_status : (s.settle).status = if s.flags.halt then .halted else .running := rfl
@[simp] theorem State.settle_fault : (s.settle).fault = s.fault := rfl
@[simp] theorem State.settle_inq : (s.settle).inq = s.inq := rfl
@[simp] theorem State.settle_outq : (s.settle).outq = s.outq := rfl
@[simp] theorem State.settle_flags : (s.settle).flags = s.flags := rfl

@[simp] theorem State.growTo_zero : s.growTo 0 = s := by simp [State.growTo]

end Sys2Proof.Machine
end

