-- ==== Sys2Proof/Laws/Ops.lean ====
section
/-! SUPPORT. Everything each shared operation can answer, said once. -/

namespace Sys2Proof.Machine

theorem check_ok {c : Config} {i : Nat} {v w : Word} : check c i v = .ok w ↔ representable c v = true ∧ w = v := by
  unfold check
  by_cases h : representable c v = true <;> simp [h]
  exact eq_comm

theorem check_error {c : Config} {i : Nat} {v : Word} {e : Raised} :
    check c i v = .error e ↔ representable c v = false ∧ e = { code := .valueOutOfRange, param := i, info := v } := by
  unfold check
  by_cases h : representable c v = true <;> simp [h]
  exact eq_comm

theorem validAddr_nonneg {c : Config} {a : Word} (h : validAddr c a = true) : 0 ≤ a := by
  unfold validAddr at h
  split at h <;> simp_all

theorem checkAddr_ok {c : Config} {i : Nat} {a : Word} {n : Nat} :
    checkAddr c i a = .ok n ↔ validAddr c a = true ∧ n = a.toNat := by
  unfold checkAddr
  by_cases h : a < 0
  · have : ¬ validAddr c a = true := fun hv => absurd (validAddr_nonneg hv) (not_le.mpr h)
    simp [h, this]
  · by_cases hv : validAddr c a = true <;> simp [h, hv]
    exact eq_comm

/-- An address is refused because it is negative, or because it is beyond a finite memory (R40). -/
theorem checkAddr_error {c : Config} {i : Nat} {a : Word} {e : Raised} :
    checkAddr c i a = .error e ↔
      (a < 0 ∧ e = { code := .negativeAddress, param := i, info := a }) ∨
      (0 ≤ a ∧ (∃ m, c.memCells = some m ∧ (m : Int) ≤ a) ∧ e = { code := .capacityExceeded, param := i, info := a }) := by
  unfold checkAddr validAddr
  by_cases h : a < 0
  · have h0 : ¬ 0 ≤ a := not_le.mpr h
    simp [h, h0]
    exact eq_comm
  · have h0 : 0 ≤ a := not_lt.mp h
    cases hm : c.memCells with
    | none => simp [h, h0]
    | some m =>
      by_cases hv : a < m
      · simp [h, h0, hv]
      · simp [h, h0, hv]
        exact ⟨fun e => ⟨not_lt.mp hv, e.symm⟩, fun e => e.2.symm⟩

/-- An error out of a sequence comes from its first part, or from the rest after the first part succeeded. -/
theorem bind_error {ε α β : Type} {x : Except ε α} {f : α → Except ε β} {e : ε} :
    x >>= f = .error e ↔ x = .error e ∨ ∃ a, x = .ok a ∧ f a = .error e := by
  cases x <;> simp [bind, Except.bind]

/-- A result out of a sequence is the rest's, after the first part succeeded. -/
theorem bind_ok {ε α β : Type} {x : Except ε α} {f : α → Except ε β} {b : β} :
    x >>= f = .ok b ↔ ∃ a, x = .ok a ∧ f a = .ok b := by
  cases x <;> simp [bind, Except.bind]

/-- InPop takes the oldest word (R9, R29). -/
theorem State.inPop_ok {s t : State} {v : Word} :
    s.inPop = .ok (v, t) ↔ ∃ q, s.inq = v :: q ∧ t = s.setInq q := by
  unfold State.inPop
  cases h : s.inq with
  | nil => simp
  | cons w q =>
    simp only [Except.ok.injEq, Prod.mk.injEq, List.cons.injEq]
    exact ⟨fun ⟨hw, ht⟩ => ⟨q, ⟨hw, rfl⟩, ht.symm⟩, fun ⟨_, ⟨hw, hq⟩, ht⟩ => ⟨hw, by rw [ht, hq]⟩⟩

theorem State.inPop_error {s : State} {e : Raised} :
    s.inPop = .error e ↔ s.inq = [] ∧ e = { code := .inputExhausted, param := 0, info := 0 } := by
  unfold State.inPop
  cases h : s.inq <;> simp
  exact eq_comm

/-- OutPush appends at the tail (R9, R30). -/
theorem State.outPush_ok {s t : State} {v : Word} :
    s.outPush v = .ok t ↔ fits s.params.outCapacity (s.outq.length + 1) = true ∧ t = s.setOutq (s.outq ++ [v]) := by
  unfold State.outPush
  by_cases h : fits s.params.outCapacity (s.outq.length + 1) = true <;> simp [h]
  exact eq_comm

theorem State.outPush_error {s : State} {v : Word} {e : Raised} :
    s.outPush v = .error e ↔ fits s.params.outCapacity (s.outq.length + 1) = false ∧
      e = { code := .outputOverflow, param := 0, info := v } := by
  unfold State.outPush
  by_cases h : fits s.params.outCapacity (s.outq.length + 1) = true <;> simp [h]
  exact eq_comm

/-- The advance moves `pc` only, past the instruction, unless a flag suppresses it (R79). -/
theorem State.advance_ok {s t : State} {n : Nat} :
    s.advance n = .ok t ↔
      (s.flags.suppressAdvance = true ∧ t = s) ∨
      (s.flags.suppressAdvance = false ∧ representable s.params (s.pc + 1 + n) = true ∧ t = s.setPc (s.pc + 1 + n)) := by
  unfold State.advance
  cases h : s.flags.suppressAdvance
  · simp only [Bool.false_eq_true, if_false, bind_ok, check_ok, Except.ok.injEq, false_and, false_or, true_and]
    exact ⟨fun ⟨_, ⟨hr, ha⟩, ht⟩ => ⟨hr, by rw [← ht, ha]⟩, fun ⟨hr, ht⟩ => ⟨_, ⟨hr, rfl⟩, ht.symm⟩⟩
  · simp
    exact eq_comm

theorem State.advance_error {s : State} {n : Nat} {e : Raised} :
    s.advance n = .error e ↔
      s.flags.suppressAdvance = false ∧ representable s.params (s.pc + 1 + n) = false ∧
        e = { code := .valueOutOfRange, param := 0, info := s.pc + 1 + n } := by
  unfold State.advance
  cases h : s.flags.suppressAdvance
  · simp [bind_error, check_error]
  · simp

/-- The two ends of a step (R77): a fault raised by the body or by the advance is taken from the start of the step, or
the body's and the advance's effects are committed with the new status. -/
theorem State.runStep_cases {s t : State} {op : Opcode} {body : State → Except Raised State}
    (h : s.runStep op body = .next t) :
    (∃ e, t = s.takeFault e ∧
      (body (s.startStep op.paramCount) = .error e ∨
        ∃ u, body (s.startStep op.paramCount) = .ok u ∧ u.advance op.paramCount = .error e)) ∨
    (∃ u v, body (s.startStep op.paramCount) = .ok u ∧ u.advance op.paramCount = .ok v ∧ t = v.settle) := by
  unfold State.runStep at h
  split at h
  · rename_i v hv
    obtain ⟨u, hu, hv⟩ := bind_ok.mp hv
    exact .inr ⟨u, v, hu, hv, by simpa using h.symm⟩
  · rename_i e he
    exact .inl ⟨e, by simpa using h.symm, bind_error.mp he⟩

theorem State.runStep_of_ok {s u v : State} {op : Opcode} {body : State → Except Raised State}
    (hu : body (s.startStep op.paramCount) = .ok u) (hv : u.advance op.paramCount = .ok v) :
    s.runStep op body = .next v.settle := by
  have : (body (s.startStep op.paramCount) >>= fun t => t.advance op.paramCount) = .ok v := bind_ok.mpr ⟨u, hu, hv⟩
  unfold State.runStep
  rw [this]

theorem State.runStep_of_error {s : State} {op : Opcode} {body : State → Except Raised State} {e : Raised}
    (h : body (s.startStep op.paramCount) = .error e) : s.runStep op body = .next (s.takeFault e) := by
  have : (body (s.startStep op.paramCount) >>= fun t => t.advance op.paramCount) = .error e := bind_error.mpr (.inl h)
  unfold State.runStep
  rw [this]

theorem State.runStep_of_advance_error {s u : State} {op : Opcode} {body : State → Except Raised State} {e : Raised}
    (hu : body (s.startStep op.paramCount) = .ok u) (he : u.advance op.paramCount = .error e) :
    s.runStep op body = .next (s.takeFault e) := by
  have : (body (s.startStep op.paramCount) >>= fun t => t.advance op.paramCount) = .error e :=
    bind_error.mpr (.inr ⟨u, hu, he⟩)
  unfold State.runStep
  rw [this]

end Sys2Proof.Machine
end

