-- ==== Sys2Proof/Laws/Operands.lean ====
section
/-! SUPPORT. The resolver and the shared instruction bodies against the terms of Safety: what they answer, and when. -/

namespace Sys2Proof.Machine

/-! Which fault an operand meets depends on `params` and `rb` alone too. -/

theorem State.resolveCell_growTo (s : State) (n i : Nat) (p : Operand) :
    (s.growTo n).resolveCell i p = s.resolveCell i p := rfl
theorem State.resolveCell_startStep (s : State) (n i : Nat) (p : Operand) :
    (s.startStep n).resolveCell i p = s.resolveCell i p := rfl
@[simp] theorem State.resolveAddr_growTo (s : State) (n i : Nat) (p : Operand) :
    (s.growTo n).resolveAddr i p = s.resolveAddr i p := rfl
@[simp] theorem State.resolveAddr_startStep (s : State) (n i : Nat) (p : Operand) :
    (s.startStep n).resolveAddr i p = s.resolveAddr i p := rfl

/-! The terms of an operand depend on `params`, `mem` and `rb` alone, so the start of a step and the reads of earlier
operands leave them as they are (R66). -/

@[simp] theorem State.addrReady_growTo (s : State) (n : Nat) (p : Operand) : (s.growTo n).addrReady p = s.addrReady p := rfl
@[simp] theorem State.valReady_growTo (s : State) (n : Nat) (p : Operand) : (s.growTo n).valReady p = s.valReady p := rfl
@[simp] theorem State.cellOf_growTo (s : State) (n : Nat) (p : Operand) : (s.growTo n).cellOf p = s.cellOf p := rfl
@[simp] theorem State.valueOf_growTo (s : State) (n : Nat) (p : Operand) : (s.growTo n).valueOf p = s.valueOf p := rfl
@[simp] theorem State.reach_growTo (s : State) (n : Nat) (p : Operand) : (s.growTo n).reach p = s.reach p := rfl
@[simp] theorem State.addrReady_startStep (s : State) (n : Nat) (p : Operand) : (s.startStep n).addrReady p = s.addrReady p := rfl
@[simp] theorem State.valReady_startStep (s : State) (n : Nat) (p : Operand) : (s.startStep n).valReady p = s.valReady p := rfl
@[simp] theorem State.cellOf_startStep (s : State) (n : Nat) (p : Operand) : (s.startStep n).cellOf p = s.cellOf p := rfl
@[simp] theorem State.valueOf_startStep (s : State) (n : Nat) (p : Operand) : (s.startStep n).valueOf p = s.valueOf p := rfl
@[simp] theorem State.reach_startStep (s : State) (n : Nat) (p : Operand) : (s.startStep n).reach p = s.reach p := rfl

/-- The resolver's cell: exactly the ready addresses, and the cell they name (R61, R63, R65). -/
theorem State.resolveCell_ok {s : State} {i : Nat} {p : Operand} {d : Nat} :
    s.resolveCell i p = .ok d ↔ s.addrReady p = true ∧ d = s.cellOf p := by
  unfold State.resolveCell State.addrReady State.cellOf State.effAddr
  cases p.mode with
  | position => simp [checkAddr_ok]
  | immediate => simp
  | relative =>
    simp only [bind_ok, check_ok, checkAddr_ok, Bool.and_eq_true]
    exact ⟨fun ⟨_, ⟨hr, rfl⟩, hv⟩ => ⟨⟨hr, hv.1⟩, hv.2⟩, fun h => ⟨_, ⟨h.1.1, rfl⟩, h.1.2, h.2⟩⟩
  | undefined k => simp

/-- A destination resolves exactly when its address is ready (R67). -/
theorem State.resolveAddr_ok {s : State} {i : Nat} {p : Operand} {d : Nat} :
    s.resolveAddr i p = .ok d ↔ s.addrReady p = true ∧ d = s.cellOf p :=
  State.resolveCell_ok

/-- A destination does not resolve for one of five reasons, in the order of R130. -/
theorem State.resolveAddr_error {s : State} {i : Nat} {p : Operand} {e : Raised} :
    s.resolveAddr i p = .error e ↔
      (∃ d, p.mode = .undefined d ∧ e = { code := .undefinedMode, param := i, info := (d : Word) }) ∨
      (p.mode = .immediate ∧ e = { code := .invalidAddressingMode, param := i, info := p.word }) ∨
      (p.mode = .relative ∧ representable s.params (s.rb + p.word) = false ∧
        e = { code := .valueOutOfRange, param := i, info := s.rb + p.word }) ∨
      ((p.mode = .position ∨ p.mode = .relative ∧ representable s.params (s.rb + p.word) = true) ∧
        checkAddr s.params i (s.effAddr p) = .error e) := by
  unfold State.resolveAddr State.resolveCell State.effAddr
  cases p.mode with
  | position => simp
  | immediate => simp [eq_comm (a := e)]
  | relative =>
    simp [bind_error, check_error, check_ok]
  | undefined k => simp [eq_comm (a := e)]

/-- A value resolves exactly when its operand is ready, to the operand's value, with the extension of its read (R67). -/
theorem State.resolveVal_ok {s t : State} {i : Nat} {p : Operand} {v : Word} :
    s.resolveVal i p = .ok (v, t) ↔
      s.valReady p = true ∧ v = s.valueOf p ∧ t = s.growTo (s.reach p) := by
  have cell : ∀ h : p.mode = .position ∨ p.mode = .relative,
      (s.resolveCell i p >>= fun a => Except.ok (s.memRead a)) = .ok (v, t) ↔
        s.addrReady p = true ∧ v = s.mem.read (s.cellOf p) ∧ t = s.growTo (s.cellOf p + 1) := by
    intro _
    simp only [bind_ok, State.resolveCell_ok, State.memRead, Except.ok.injEq, Prod.mk.injEq]
    exact ⟨fun ⟨_, ⟨hr, rfl⟩, hv, ht⟩ => ⟨hr, hv.symm, ht.symm⟩, fun ⟨hr, hv, ht⟩ => ⟨_, ⟨hr, rfl⟩, hv.symm, ht.symm⟩⟩
  unfold State.resolveVal State.valReady State.valueOf State.reach
  cases hm : p.mode with
  | position => exact cell (.inl hm)
  | immediate => simp [eq_comm (a := v), eq_comm (a := t)]
  | relative => exact cell (.inr hm)
  | undefined k => simp

/-- A value does not resolve for one of four reasons, in the order of R130. -/
theorem State.resolveVal_error {s : State} {i : Nat} {p : Operand} {e : Raised} :
    s.resolveVal i p = .error e ↔
      (∃ d, p.mode = .undefined d ∧ e = { code := .undefinedMode, param := i, info := (d : Word) }) ∨
      (p.mode = .relative ∧ representable s.params (s.rb + p.word) = false ∧
        e = { code := .valueOutOfRange, param := i, info := s.rb + p.word }) ∨
      ((p.mode = .position ∨ p.mode = .relative ∧ representable s.params (s.rb + p.word) = true) ∧
        checkAddr s.params i (s.effAddr p) = .error e) := by
  have cell : (s.resolveCell i p >>= fun a => Except.ok (s.memRead a)) = .error e ↔ s.resolveAddr i p = .error e := by
    simp [bind_error, State.resolveAddr]
  unfold State.resolveVal
  cases hm : p.mode with
  | position => simpa [hm] using cell.trans State.resolveAddr_error
  | immediate => simp
  | relative => simpa [hm] using cell.trans State.resolveAddr_error
  | undefined k => simp [eq_comm (a := e)]

@[simp] theorem State.resolveVal_growTo_error {s : State} {n i : Nat} {p : Operand} {e : Raised} :
    (s.growTo n).resolveVal i p = .error e ↔ s.resolveVal i p = .error e := by
  rw [State.resolveVal_error, State.resolveVal_error]; rfl

@[simp] theorem State.resolveVal_startStep_error {s : State} {n i : Nat} {p : Operand} {e : Raised} :
    (s.startStep n).resolveVal i p = .error e ↔ s.resolveVal i p = .error e := by
  rw [State.resolveVal_error, State.resolveVal_error]; rfl

/-- The body of an instruction that stores a result (R41, R66): every operand is ready, and the one write comes last. -/
theorem storeBinary_ok {result : Config → Word → Word → Except Raised Word} {p1 p2 p3 : Operand} {s t : State} :
    storeBinary result p1 p2 p3 s = .ok t ↔
      s.valReady p1 = true ∧ s.valReady p2 = true ∧ s.addrReady p3 = true ∧
        ∃ v, result s.params (s.valueOf p1) (s.valueOf p2) = .ok v ∧
          t = ((s.growTo (s.reach p1)).growTo (s.reach p2)).memWrite (s.cellOf p3) v := by
  unfold storeBinary
  simp only [bind_ok, Prod.exists, State.resolveVal_ok, State.resolveAddr_ok, Except.ok.injEq]
  constructor
  · rintro ⟨_, _, ⟨h1, rfl, rfl⟩, _, _, ⟨h2, rfl, rfl⟩, _, ⟨h3, rfl⟩, v, hv, rfl⟩
    exact ⟨h1, h2, h3, v, hv, rfl⟩
  · rintro ⟨h1, h2, h3, v, hv, rfl⟩
    exact ⟨_, _, ⟨h1, rfl, rfl⟩, _, _, ⟨h2, rfl, rfl⟩, _, ⟨h3, rfl⟩, v, hv, rfl⟩

/-- The first fault in parameter order, then the result's (R130). -/
theorem storeBinary_error {result : Config → Word → Word → Except Raised Word} {p1 p2 p3 : Operand} {s : State}
    {e : Raised} :
    storeBinary result p1 p2 p3 s = .error e ↔
      s.resolveVal 1 p1 = .error e ∨
      (s.valReady p1 = true ∧
        (s.resolveVal 2 p2 = .error e ∨
        (s.valReady p2 = true ∧
          (s.resolveAddr 3 p3 = .error e ∨
          (s.addrReady p3 = true ∧ result s.params (s.valueOf p1) (s.valueOf p2) = .error e))))) := by
  unfold storeBinary
  simp only [bind_error, Prod.exists, State.resolveVal_ok, State.resolveAddr_ok]
  refine or_congr Iff.rfl ⟨?_, ?_⟩
  · rintro ⟨_, _, ⟨h1, rfl, rfl⟩, h⟩
    refine ⟨h1, h.imp State.resolveVal_growTo_error.mp ?_⟩
    rintro ⟨_, _, ⟨h2, rfl, rfl⟩, h⟩
    refine ⟨h2, h.imp id ?_⟩
    rintro ⟨_, ⟨h3, rfl⟩, h⟩
    exact ⟨h3, h.resolve_right (by simp)⟩
  · rintro ⟨h1, h⟩
    refine ⟨_, _, ⟨h1, rfl, rfl⟩, h.imp State.resolveVal_growTo_error.mpr ?_⟩
    rintro ⟨h2, h⟩
    refine ⟨_, _, ⟨h2, rfl, rfl⟩, h.imp id ?_⟩
    rintro ⟨h3, h⟩
    exact ⟨_, ⟨h3, rfl⟩, .inl h⟩

/-- The body of a jump: both operands are ready; `pc` and `jump` change only if it is taken (R108 to R110). -/
theorem jumpWhen_ok {taken : Word → Bool} {p1 p2 : Operand} {s t : State} :
    jumpWhen taken p1 p2 s = .ok t ↔
      s.valReady p1 = true ∧ s.valReady p2 = true ∧
        t = (let u := (s.growTo (s.reach p1)).growTo (s.reach p2)
             if taken (s.valueOf p1) then (u.setPc (s.valueOf p2)).setFlags u.flags.setJump else u) := by
  unfold jumpWhen
  simp only [bind_ok, Prod.exists, State.resolveVal_ok, Except.ok.injEq]
  constructor
  · rintro ⟨_, _, ⟨h1, rfl, rfl⟩, _, _, ⟨h2, rfl, rfl⟩, rfl⟩
    exact ⟨h1, h2, rfl⟩
  · rintro ⟨h1, h2, rfl⟩
    exact ⟨_, _, ⟨h1, rfl, rfl⟩, _, _, ⟨h2, rfl, rfl⟩, rfl⟩

/-- A jump faults in its operands only (R108, R111). -/
theorem jumpWhen_error {taken : Word → Bool} {p1 p2 : Operand} {s : State} {e : Raised} :
    jumpWhen taken p1 p2 s = .error e ↔
      s.resolveVal 1 p1 = .error e ∨
      (s.valReady p1 = true ∧ s.resolveVal 2 p2 = .error e) := by
  unfold jumpWhen
  simp only [bind_error, Prod.exists, State.resolveVal_ok]
  refine or_congr Iff.rfl ⟨?_, ?_⟩
  · rintro ⟨_, _, ⟨h1, rfl, rfl⟩, h⟩
    exact ⟨h1, State.resolveVal_growTo_error.mp (h.resolve_right (by simp))⟩
  · rintro ⟨h1, h⟩
    exact ⟨_, _, ⟨h1, rfl, rfl⟩, .inl (State.resolveVal_growTo_error.mpr h)⟩

end Sys2Proof.Machine
end

