-- ==== Sys2Proof/Laws/Bodies.lean ====
section
/-! SUPPORT. The bodies of the one-operand instructions: what they answer, and when they fault. The bodies of the others
are in Laws/Operands. -/

namespace Sys2Proof.Machine

/-- input goes through exactly when its destination is ready and a word is queued (R104). -/
theorem inputBody_ok {p1 : Operand} {s t : State} :
    inputBody p1 s = .ok t ↔
      s.addrReady p1 = true ∧ ∃ v q, s.inq = v :: q ∧ t = (s.setInq q).memWrite (s.cellOf p1) v := by
  unfold inputBody
  simp only [bind_ok, Prod.exists, State.resolveAddr_ok, State.inPop_ok, Except.ok.injEq]
  constructor
  · rintro ⟨_, ⟨h1, rfl⟩, v, _, ⟨q, hq, rfl⟩, rfl⟩
    exact ⟨h1, v, q, hq, rfl⟩
  · rintro ⟨h1, v, q, hq, rfl⟩
    exact ⟨_, ⟨h1, rfl⟩, v, _, ⟨q, hq, rfl⟩, rfl⟩

/-- The address faults come first, then the empty FIFO (R104, R130). -/
theorem inputBody_error {p1 : Operand} {s : State} {e : Raised} :
    inputBody p1 s = .error e ↔
      s.resolveAddr 1 p1 = .error e ∨
      (s.addrReady p1 = true ∧ s.inq = [] ∧ e = { code := .inputExhausted, param := 0, info := 0 }) := by
  unfold inputBody
  simp only [bind_error, Prod.exists, State.resolveAddr_ok, State.inPop_error]
  refine or_congr Iff.rfl ⟨?_, ?_⟩
  · rintro ⟨_, ⟨h1, rfl⟩, h⟩
    exact ⟨h1, h.resolve_right (by simp)⟩
  · rintro ⟨h1, h⟩
    exact ⟨_, ⟨h1, rfl⟩, .inl h⟩

/-- output goes through exactly when its operand is ready and the FIFO has room (R105). -/
theorem outputBody_ok {p1 : Operand} {s t : State} :
    outputBody p1 s = .ok t ↔
      s.valReady p1 = true ∧ fits s.params.outCapacity (s.outq.length + 1) = true ∧
        t = ((s.growTo (s.reach p1)).setOutq (s.outq ++ [s.valueOf p1])).setFlags (s.flags.setOutput (s.valueOf p1)) := by
  unfold outputBody
  simp only [bind_ok, Prod.exists, State.resolveVal_ok, State.outPush_ok, Except.ok.injEq]
  constructor
  · rintro ⟨_, _, ⟨h1, rfl, rfl⟩, _, ⟨h2, rfl⟩, rfl⟩
    exact ⟨h1, h2, rfl⟩
  · rintro ⟨h1, h2, rfl⟩
    exact ⟨_, _, ⟨h1, rfl, rfl⟩, _, ⟨h2, rfl⟩, rfl⟩

/-- The operand's fault comes first, then the full FIFO, with the value not written (R105, R130). -/
theorem outputBody_error {p1 : Operand} {s : State} {e : Raised} :
    outputBody p1 s = .error e ↔
      s.resolveVal 1 p1 = .error e ∨
      (s.valReady p1 = true ∧ fits s.params.outCapacity (s.outq.length + 1) = false ∧
        e = { code := .outputOverflow, param := 0, info := s.valueOf p1 }) := by
  unfold outputBody
  simp only [bind_error, Prod.exists, State.resolveVal_ok, State.outPush_error]
  refine or_congr Iff.rfl ⟨?_, ?_⟩
  · rintro ⟨_, _, ⟨h1, rfl, rfl⟩, h⟩
    exact ⟨h1, h.resolve_right (by simp)⟩
  · rintro ⟨h1, h⟩
    exact ⟨_, _, ⟨h1, rfl, rfl⟩, .inl h⟩

/-- adjust-relative-base goes through exactly when its operand is ready and the new base is representable (R116). -/
theorem adjustBody_ok {p1 : Operand} {s t : State} :
    adjustBody p1 s = .ok t ↔
      s.valReady p1 = true ∧ representable s.params (s.rb + s.valueOf p1) = true ∧
        t = (s.growTo (s.reach p1)).setRb (s.rb + s.valueOf p1) := by
  unfold adjustBody
  simp only [bind_ok, Prod.exists, State.resolveVal_ok, check_ok, Except.ok.injEq]
  constructor
  · rintro ⟨_, _, ⟨h1, rfl, rfl⟩, _, ⟨h2, rfl⟩, rfl⟩
    exact ⟨h1, h2, rfl⟩
  · rintro ⟨h1, h2, rfl⟩
    exact ⟨_, _, ⟨h1, rfl, rfl⟩, _, ⟨h2, rfl⟩, rfl⟩

/-- The operand's fault comes first, then the new base's (R116, R130). -/
theorem adjustBody_error {p1 : Operand} {s : State} {e : Raised} :
    adjustBody p1 s = .error e ↔
      s.resolveVal 1 p1 = .error e ∨
      (s.valReady p1 = true ∧ representable s.params (s.rb + s.valueOf p1) = false ∧
        e = { code := .valueOutOfRange, param := 0, info := s.rb + s.valueOf p1 }) := by
  unfold adjustBody
  simp only [bind_error, Prod.exists, State.resolveVal_ok, check_error]
  refine or_congr Iff.rfl ⟨?_, ?_⟩
  · rintro ⟨_, _, ⟨h1, rfl, rfl⟩, h⟩
    exact ⟨h1, h.resolve_right (by simp)⟩
  · rintro ⟨h1, h⟩
    exact ⟨_, _, ⟨h1, rfl, rfl⟩, .inl h⟩

/-- halt's body only sets the flag (R118). -/
theorem haltBody_ok {s t : State} : haltBody s = .ok t ↔ t = s.setFlags s.flags.setHalt := by
  unfold haltBody
  simp only [Except.ok.injEq]
  exact eq_comm

end Sys2Proof.Machine
end

