-- ==== Sys2Proof/Laws/Step.lean ====
section
/-! SUPPORT. What a fetch and a step can answer. -/

namespace Sys2Proof.Machine

/-- The parameter cells pass exactly when each can be fetched (R59). -/
theorem checkParamCells_ok {c : Config} {pc : Word} {i k : Nat} :
    checkParamCells c pc i k = .ok () ↔
      ∀ j, i ≤ j → j < i + k → representable c (pc + j) = true ∧ validAddr c (pc + j) = true := by
  induction k generalizing i with
  | zero =>
    simp only [checkParamCells, true_iff]
    intro j h1 h2; omega
  | succ k ih =>
    simp only [checkParamCells, bind_ok, check_ok, checkAddr_ok, ih]
    constructor
    · rintro ⟨_, ⟨hr, rfl⟩, _, ⟨hv, -⟩, h⟩ j h1 h2
      rcases Nat.eq_or_lt_of_le h1 with rfl | h1
      · exact ⟨hr, hv⟩
      · exact h j h1 (by omega)
    · intro h
      have hi := h i (by omega) (by omega)
      exact ⟨_, ⟨hi.1, rfl⟩, _, ⟨hi.2, rfl⟩, fun j h1 h2 => h j (by omega) (by omega)⟩

/-- A fetch gives an instruction exactly when `pc` can be fetched from, its word selects one, and the parameter cells can
be fetched (R59). -/
theorem State.fetch_ok {s : State} {i : Instr} :
    s.fetch = .ok i ↔
      validAddr s.params s.pc = true ∧ ∃ op, identify (s.mem.read s.pc.toNat) = .ok op ∧
        checkParamCells s.params s.pc 1 op.paramCount = .ok () ∧
        i = assemble op (s.mem.read s.pc.toNat).toNat (s.cell (s.pc + 1)) (s.cell (s.pc + 2)) (s.cell (s.pc + 3)) := by
  unfold State.fetch
  simp only [bind_ok, checkAddr_ok]
  constructor
  · rintro ⟨_, ⟨hv, rfl⟩, h⟩
    refine ⟨hv, ?_⟩
    split at h
    · simp at h
    · rename_i op hop
      obtain ⟨_, hc, h⟩ := bind_ok.mp h
      exact ⟨op, hop, hc, by simpa using h.symm⟩
  · rintro ⟨hv, op, hop, hc, rfl⟩
    refine ⟨_, ⟨hv, rfl⟩, ?_⟩
    rw [hop]
    exact bind_ok.mpr ⟨_, hc, rfl⟩

/-- A step of a live engine is exec of what it fetches, or the fetch's fault. -/
theorem step_cases {s : State} (h : s.live = true) :
    (∃ i, s.fetch = .ok i ∧ step s = exec i s) ∨ (∃ e, s.fetch = .error e ∧ step s = .next (s.takeFault e)) := by
  have hf : s.status.isFinal = false := by simpa [State.live] using h
  unfold step
  rw [hf]
  cases hs : s.fetch with
  | ok i => exact .inl ⟨i, rfl, rfl⟩
  | error e => exact .inr ⟨e, rfl, rfl⟩

/-- A halted or faulted engine does not step (R93, R94). -/
theorem step_final {s : State} (h : s.live = false) : step s = .next s := by
  have hf : s.status.isFinal = true := by simpa [State.live] using h
  unfold step
  rw [hf]
  rfl

end Sys2Proof.Machine
end

