-- ==== Sys2Proof/Laws/Commands.lean ====
section
/-! SUPPORT. What queueing words for RUN, RESUME and IN_PUSH can answer. -/

namespace Sys2Proof.Machine

/-- No words are always accepted, whatever the FIFO holds (R87, R89). -/
@[simp] theorem State.pushInputs_nil (s : State) : s.pushInputs [] = some s := by
  simp [State.pushInputs, State.setInq]

/-- Words are queued exactly if there are none, or each is a word of the engine and all of them fit (R87, R89, R99). -/
theorem State.pushInputs_some {s t : State} {vs : List Word} :
    s.pushInputs vs = some t ↔
      (vs = [] ∨ ((∀ v ∈ vs, representable s.params v = true) ∧
        fits s.params.inCapacity (s.inq.length + vs.length) = true)) ∧ t = s.setInq (s.inq ++ vs) := by
  unfold State.pushInputs
  split
  · rename_i h
    simp only [Bool.or_eq_true, Bool.and_eq_true, List.isEmpty_iff, List.all_eq_true] at h
    simp only [h, true_and, Option.some.injEq]
    exact eq_comm
  · rename_i h
    simp only [Bool.or_eq_true, Bool.and_eq_true, List.isEmpty_iff, List.all_eq_true] at h
    simp [h]

end Sys2Proof.Machine
end

