-- ==== Sys2Proof/Laws/Decode.lean ====
section
/-! SUPPORT. The opcode map, the mode digits and the decoder: small lemmas, so that no proof unfolds them. -/

namespace Sys2Proof

@[simp] theorem Opcode.ofId_id (op : Opcode) : Opcode.ofId op.id = some op := by cases op <;> rfl

theorem Opcode.id_of_ofId {n : Nat} {op : Opcode} (h : Opcode.ofId n = some op) : n = op.id := by
  unfold Opcode.ofId at h
  split at h <;> simp at h <;> subst h <;> rfl

/-- The identifiers that are not in the table (R70). -/
theorem Opcode.ofId_none {n : Nat} : Opcode.ofId n = none ↔ n ∉ [1, 2, 3, 4, 5, 6, 7, 8, 9, 99] := by
  constructor
  · intro h hn
    simp only [List.mem_cons, List.not_mem_nil, or_false] at hn
    rcases hn with rfl | rfl | rfl | rfl | rfl | rfl | rfl | rfl | rfl | rfl <;> simp [Opcode.ofId] at h
  · intro h
    unfold Opcode.ofId
    split <;> simp_all

theorem digit_lt (k v : Nat) : digit k v < 10 := Nat.mod_lt _ (by norm_num)

@[simp] theorem Mode.toDigit_ofDigit (d : Nat) : (Mode.ofDigit d).toDigit = d := by
  unfold Mode.ofDigit
  split <;> rfl

theorem Mode.toDigit_lt {m : Mode} (h : m.isDigit = true) : m.toDigit < 10 := by
  cases m <;> simp_all [Mode.isDigit, Mode.toDigit]
  omega

theorem Mode.ofDigit_toDigit {m : Mode} (h : m.isDigit = true) : Mode.ofDigit m.toDigit = m := by
  cases m with
  | position => rfl
  | immediate => rfl
  | relative => rfl
  | undefined d =>
    simp only [Mode.isDigit, decide_eq_true_eq] at h
    simp only [Mode.toDigit, Mode.ofDigit]
    split <;> first | omega | rfl

theorem Mode.isDigit_ofDigit {d : Nat} (h : d < 10) : (Mode.ofDigit d).isDigit = true := by
  interval_cases d <;> rfl

@[simp] theorem assemble_opcode (op : Opcode) (raw : Nat) (c1 c2 c3 : Word) :
    (assemble op raw c1 c2 c3).opcode = op := by
  cases op <;> rfl

/-- The words that have an identifier (R54, R55). -/
theorem identify_ok {r : Word} {op : Opcode} : identify r = .ok op ↔ 0 ≤ r ∧ r.toNat % 100 = op.id := by
  unfold identify
  by_cases h : r < 0
  · simp [h]
  · rw [if_neg h]
    have h0 : 0 ≤ r := not_lt.mp h
    cases ho : Opcode.ofId (r.toNat % 100) with
    | none =>
      simp only [h0, true_and, reduceCtorEq, false_iff]
      intro h'
      rw [h', Opcode.ofId_id] at ho
      simp at ho
    | some op' =>
      simp only [h0, true_and, Except.ok.injEq, Opcode.id_of_ofId ho]
      constructor
      · rintro rfl; rfl
      · intro he
        have : Opcode.ofId op'.id = Opcode.ofId op.id := by rw [he]
        simpa using this

/-- The words that have none, and the `info` of the fault (R55, R121). -/
theorem identify_error {r info : Word} :
    identify r = .error info ↔
      (r < 0 ∧ info = r) ∨
      (0 ≤ r ∧ r.toNat % 100 ∉ [1, 2, 3, 4, 5, 6, 7, 8, 9, 99] ∧ info = ((r.toNat % 100 : Nat) : Word)) := by
  unfold identify
  by_cases h : r < 0
  · have : ¬ 0 ≤ r := not_le.mpr h
    simp only [h, if_true, this, false_and, or_false, true_and, Except.error.injEq]
    exact eq_comm
  · rw [if_neg h]
    have h0 : 0 ≤ r := not_lt.mp h
    cases ho : Opcode.ofId (r.toNat % 100) with
    | none =>
      simp only [h, h0, Opcode.ofId_none.mp ho, false_and, false_or, true_and, Except.error.injEq, not_false_eq_true]
      exact eq_comm
    | some op' =>
      have : ¬ (r.toNat % 100 ∉ [1, 2, 3, 4, 5, 6, 7, 8, 9, 99]) := fun hh => by
        rw [Opcode.ofId_none.mpr hh] at ho
        simp at ho
      simp only [h, false_and, false_or, this, and_false, reduceCtorEq]

/-- What a decode that succeeds has read. -/
theorem decode_ok {r : Word} {cells rest : List Word} {i : Instr} :
    decode (r :: cells) = .ok (i, rest) ↔
      ∃ op, identify r = .ok op ∧ op.paramCount ≤ cells.length ∧
        i = assemble op r.toNat (cells.getD 0 0) (cells.getD 1 0) (cells.getD 2 0) ∧ rest = cells.drop op.paramCount := by
  simp only [decode]
  cases hid : identify r with
  | error info => simp
  | ok op =>
    by_cases hl : cells.length < op.paramCount
    · simp [hl]
    · simp only [hl, if_false, Except.ok.injEq, Prod.mk.injEq, exists_eq_left']
      have : op.paramCount ≤ cells.length := not_lt.mp hl
      constructor
      · rintro ⟨rfl, rfl⟩; exact ⟨this, rfl, rfl⟩
      · rintro ⟨-, rfl, rfl⟩; exact ⟨rfl, rfl⟩

end Sys2Proof
end

