-- ==== Sys2Proof/Laws/Exec.lean ====
section
/-! SUPPORT. What `exec` answers, said once for every instruction: one next state when the instruction goes through, else
a fault taken from the state it started in. -/

namespace Sys2Proof.Machine

/-- Where a taken jump goes; 0 for an instruction that is no jump. -/
def State.jumpTarget (s : State) : Instr → Word
  | .jumpIfTrue _ p2 => s.valueOf p2
  | .jumpIfFalse _ p2 => s.valueOf p2
  | _ => 0

/-- The engine after a step of i from s that goes through. -/
def State.after (s : State) (i : Instr) : State :=
  { s with
    mem := match s.stores i with
      | some (d, v) => s.mem.write d v
      | none => s.mem
    len := s.lenAfter i.opcode.paramCount i.operands
    pc := if i = .halt then s.pc else if s.takesJump i then s.jumpTarget i else s.pc + 1 + i.opcode.paramCount
    rb := match i with
      | .adjustRelativeBase p => s.rb + s.valueOf p
      | _ => s.rb
    inq := match i with
      | .input _ => s.inq.tail
      | _ => s.inq
    outq := match i with
      | .output p => s.outq ++ [s.valueOf p]
      | _ => s.outq
    status := if i = .halt then .halted else .running
    flags :=
      { jump := s.takesJump i
        halt := decide (i = .halt)
        output := match i with
          | .output _ => true
          | _ => false
        vout := match i with
          | .output p => some (s.valueOf p)
          | _ => none } }

/-- The step of i goes through: it executes, and its advance, if it makes one, is representable. -/
def State.goes (s : State) (i : Instr) : Prop :=
  s.executes i = true ∧
    (i = .halt ∨ s.takesJump i = true ∨ representable s.params (s.pc + 1 + i.opcode.paramCount) = true)

/-- What is proved of each instruction below. -/
def Outcomes (i : Instr) (s t : State) : Prop :=
  (s.goes i → exec i s = .next (s.after i)) ∧
    (exec i s = .next t → (s.goes i ∧ t = s.after i) ∨ (¬ s.goes i ∧ ∃ e, t = s.takeFault e))

theorem State.reach_of_addrReady {s : State} {p : Operand} (h : s.addrReady p = true) : s.reach p = s.cellOf p + 1 := by
  unfold State.addrReady at h
  unfold State.reach State.cellOf
  cases hm : p.mode <;> simp_all

/-- A step whose body and advance complete exactly when g holds, and then give r. -/
theorem State.runStep_outcomes {s t r : State} {op : Opcode} {body : State → Except Raised State} {g : Prop}
    (hg : g → ∃ u v, body (s.startStep op.paramCount) = .ok u ∧ u.advance op.paramCount = .ok v ∧ v.settle = r)
    (hg' : ∀ u v, body (s.startStep op.paramCount) = .ok u → u.advance op.paramCount = .ok v → g) :
    (g → s.runStep op body = .next r) ∧
      (s.runStep op body = .next t → (g ∧ t = r) ∨ (¬ g ∧ ∃ e, t = s.takeFault e)) := by
  constructor
  · intro h
    obtain ⟨u, v, hu, hv, hr⟩ := hg h
    rw [State.runStep_of_ok hu hv, hr]
  · intro h
    by_cases hgg : g
    · obtain ⟨u, v, hu, hv, hr⟩ := hg hgg
      rw [State.runStep_of_ok hu hv, hr] at h
      exact .inl ⟨hgg, by simpa using h.symm⟩
    · rcases State.runStep_cases h with ⟨e, he, -⟩ | ⟨u, v, hu, hv, -⟩
      · exact .inr ⟨hgg, e, he⟩
      · exact absurd (hg' u v hu hv) hgg

/-- The step of an instruction of shape val val addr. -/
theorem State.runStep_storeBinary {s t : State} {op : Opcode} {f : Config → Word → Word → Except Raised Word}
    {p1 p2 p3 : Operand} {ok : Bool} {v : Word} (hop : op.paramCount = 3)
    (hf : ∀ w, f s.params (s.valueOf p1) (s.valueOf p2) = .ok w ↔ ok = true ∧ w = v) :
    let g := (s.valReady p1 && s.valReady p2 && s.addrReady p3 && ok) = true ∧
      representable s.params (s.pc + 1 + 3) = true
    let r := { s with
      mem := s.mem.write (s.cellOf p3) v, len := s.lenAfter 3 [p1, p2, p3], pc := s.pc + 1 + 3, status := .running
      flags := Flags.clear }
    (g → s.runStep op (storeBinary f p1 p2 p3) = .next r) ∧
      (s.runStep op (storeBinary f p1 p2 p3) = .next t → (g ∧ t = r) ∨ (¬ g ∧ ∃ e, t = s.takeFault e)) := by
  intro g r
  apply State.runStep_outcomes
  · rintro ⟨h, hr⟩
    simp only [Bool.and_eq_true] at h
    obtain ⟨⟨⟨h1, h2⟩, h3⟩, h4⟩ := h
    rw [hop]
    refine ⟨_, _, storeBinary_ok.mpr ⟨by simpa using h1, by simpa using h2, by simpa using h3, v, (hf v).mpr ⟨h4, rfl⟩, rfl⟩,
      State.advance_ok.mpr (.inr ⟨rfl, hr, rfl⟩), ?_⟩
    apply State.ext <;> simp [r, State.lenAfter, State.reach_of_addrReady h3, Flags.clear]
  · intro u w hu hw
    rw [hop] at hu hw
    obtain ⟨h1, h2, h3, x, hx, rfl⟩ := storeBinary_ok.mp hu
    have := (hf x).mp hx
    rcases State.advance_ok.mp hw with ⟨hsup, -⟩ | ⟨-, hr, -⟩
    · simp [Flags.suppressAdvance, Flags.clear] at hsup
    · refine ⟨?_, hr⟩
      simp at h1 h2 h3
      simp [h1, h2, h3, this.1]

/-- The step of a jump. -/
theorem State.runStep_jumpWhen {s t : State} {op : Opcode} {f : Word → Bool} {p1 p2 : Operand} (hop : op.paramCount = 2) :
    let g := (s.valReady p1 && s.valReady p2) = true ∧
      (f (s.valueOf p1) = true ∨ representable s.params (s.pc + 1 + 2) = true)
    let r := { s with
      len := s.lenAfter 2 [p1, p2], pc := if f (s.valueOf p1) then s.valueOf p2 else s.pc + 1 + 2, status := .running
      flags := { jump := f (s.valueOf p1), halt := false, output := false, vout := none } }
    (g → s.runStep op (jumpWhen f p1 p2) = .next r) ∧
      (s.runStep op (jumpWhen f p1 p2) = .next t → (g ∧ t = r) ∨ (¬ g ∧ ∃ e, t = s.takeFault e)) := by
  intro g r
  apply State.runStep_outcomes
  · rintro ⟨h, hr⟩
    simp only [Bool.and_eq_true] at h
    obtain ⟨h1, h2⟩ := h
    rw [hop]
    cases hf : f (s.valueOf p1)
    · rw [hf] at hr
      refine ⟨_, _, jumpWhen_ok.mpr ⟨by simpa using h1, by simpa using h2, rfl⟩,
        State.advance_ok.mpr (.inr ⟨?_, ?_, rfl⟩), ?_⟩
      · simp [hf, Flags.suppressAdvance, Flags.clear]
      · simpa [hf] using hr
      · apply State.ext <;> simp [r, hf, State.lenAfter, Flags.clear]
    · refine ⟨_, _, jumpWhen_ok.mpr ⟨by simpa using h1, by simpa using h2, rfl⟩,
        State.advance_ok.mpr (.inl ⟨?_, rfl⟩), ?_⟩
      · simp [hf, Flags.suppressAdvance, Flags.clear, Flags.setJump]
      · apply State.ext <;> simp [r, hf, State.lenAfter, Flags.clear, Flags.setJump]
  · intro u w hu hw
    rw [hop] at hu hw
    obtain ⟨h1, h2, rfl⟩ := jumpWhen_ok.mp hu
    simp at h1 h2
    refine ⟨by simp [h1, h2], ?_⟩
    cases hf : f (s.valueOf p1)
    · rcases State.advance_ok.mp hw with ⟨hsup, -⟩ | ⟨-, hr, -⟩
      · simp [hf, Flags.suppressAdvance, Flags.clear] at hsup
      · simp [hf] at hr
        exact .inr hr
    · exact .inl rfl

/-- The step of an instruction of one parameter. -/
theorem State.runStep_one {s t r : State} {op : Opcode} {body : State → Except Raised State} {ok : Bool}
    (hop : op.paramCount = 1) (hb : ∀ u, body (s.startStep 1) = .ok u ↔ ok = true ∧ u = r)
    (hf : r.flags.suppressAdvance = false) (hp : r.params = s.params) (hpc : r.pc = s.pc) :
    let g := ok = true ∧ representable s.params (s.pc + 1 + 1) = true
    let r' := (r.setPc (s.pc + 1 + 1)).settle
    (g → s.runStep op body = .next r') ∧
      (s.runStep op body = .next t → (g ∧ t = r') ∨ (¬ g ∧ ∃ e, t = s.takeFault e)) := by
  apply State.runStep_outcomes
  · rintro ⟨hg, hr⟩
    rw [hop]
    exact ⟨r, _, (hb r).mpr ⟨hg, rfl⟩, State.advance_ok.mpr (.inr ⟨hf, by rw [hp, hpc]; exact hr, rfl⟩), by rw [hpc]; rfl⟩
  · intro u v hu hv
    rw [hop] at hu hv
    obtain ⟨hg, rfl⟩ := (hb u).mp hu
    rcases State.advance_ok.mp hv with ⟨h, -⟩ | ⟨-, hr, -⟩
    · rw [hf] at h; simp at h
    · rw [hp, hpc] at hr; exact ⟨hg, hr⟩

theorem execAdd_outcomes (p1 p2 p3 : Operand) (s t : State) : Outcomes (.add p1 p2 p3) s t := by
  have := State.runStep_storeBinary (s := s) (t := t) (op := .add) (f := fun c a b => check c 0 (a + b))
    (p1 := p1) (p2 := p2) (p3 := p3) (ok := representable s.params (s.valueOf p1 + s.valueOf p2))
    (v := s.valueOf p1 + s.valueOf p2) rfl (fun w => check_ok)
  simpa [Outcomes, State.goes, State.executes, State.takesJump, State.after, State.jumpTarget, State.stores, exec,
    execAdd, Instr.operands, Instr.opcode, Opcode.paramCount, Flags.clear] using this

theorem execMul_outcomes (p1 p2 p3 : Operand) (s t : State) : Outcomes (.mul p1 p2 p3) s t := by
  have := State.runStep_storeBinary (s := s) (t := t) (op := .mul) (f := fun c a b => check c 0 (a * b))
    (p1 := p1) (p2 := p2) (p3 := p3) (ok := representable s.params (s.valueOf p1 * s.valueOf p2))
    (v := s.valueOf p1 * s.valueOf p2) rfl (fun w => check_ok)
  simpa [Outcomes, State.goes, State.executes, State.takesJump, State.after, State.jumpTarget, State.stores, exec,
    execMul, Instr.operands, Instr.opcode, Opcode.paramCount, Flags.clear] using this

theorem execLessThan_outcomes (p1 p2 p3 : Operand) (s t : State) : Outcomes (.lessThan p1 p2 p3) s t := by
  have := State.runStep_storeBinary (s := s) (t := t) (op := .lessThan) (f := fun _ a b => .ok (if a < b then 1 else 0))
    (p1 := p1) (p2 := p2) (p3 := p3) (ok := true)
    (v := if s.valueOf p1 < s.valueOf p2 then 1 else 0) rfl (fun w => by simp; exact eq_comm)
  simpa [Outcomes, State.goes, State.executes, State.takesJump, State.after, State.jumpTarget, State.stores, exec,
    execLessThan, Instr.operands, Instr.opcode, Opcode.paramCount, Flags.clear] using this

theorem execEquals_outcomes (p1 p2 p3 : Operand) (s t : State) : Outcomes (.equals p1 p2 p3) s t := by
  have := State.runStep_storeBinary (s := s) (t := t) (op := .equals) (f := fun _ a b => .ok (if a = b then 1 else 0))
    (p1 := p1) (p2 := p2) (p3 := p3) (ok := true)
    (v := if s.valueOf p1 = s.valueOf p2 then 1 else 0) rfl (fun w => by simp; exact eq_comm)
  simpa [Outcomes, State.goes, State.executes, State.takesJump, State.after, State.jumpTarget, State.stores, exec,
    execEquals, Instr.operands, Instr.opcode, Opcode.paramCount, Flags.clear] using this

theorem execJumpIfTrue_outcomes (p1 p2 : Operand) (s t : State) : Outcomes (.jumpIfTrue p1 p2) s t := by
  have := State.runStep_jumpWhen (s := s) (t := t) (op := .jumpIfTrue) (f := fun a => a != 0) (p1 := p1) (p2 := p2) rfl
  simpa [Outcomes, State.goes, State.executes, State.takesJump, State.after, State.jumpTarget, State.stores, exec,
    execJumpIfTrue, Instr.operands, Instr.opcode, Opcode.paramCount, Flags.clear] using this

theorem execJumpIfFalse_outcomes (p1 p2 : Operand) (s t : State) : Outcomes (.jumpIfFalse p1 p2) s t := by
  have := State.runStep_jumpWhen (s := s) (t := t) (op := .jumpIfFalse) (f := fun a => a == 0) (p1 := p1) (p2 := p2) rfl
  simpa [Outcomes, State.goes, State.executes, State.takesJump, State.after, State.jumpTarget, State.stores, exec,
    execJumpIfFalse, Instr.operands, Instr.opcode, Opcode.paramCount, Flags.clear] using this

theorem execHalt_outcomes (s t : State) : Outcomes .halt s t := by
  unfold Outcomes exec execHalt
  apply State.runStep_outcomes
  · intro _
    exact ⟨_, _, haltBody_ok.mpr rfl, State.advance_ok.mpr (.inl ⟨rfl, rfl⟩), by
      apply State.ext <;> simp [State.after, Flags.clear, Flags.setHalt, State.stores, State.takesJump, State.lenAfter,
        Instr.operands, Instr.opcode, Opcode.paramCount]⟩
  · intro _ _ _ _; simp [State.goes, State.executes]

theorem execOutput_outcomes (p1 : Operand) (s t : State) : Outcomes (.output p1) s t := by
  have := State.runStep_one (s := s) (t := t) (op := .output) (body := outputBody p1) (ok := s.executes (.output p1))
    (r := (((s.startStep 1).growTo ((s.startStep 1).reach p1)).setOutq (s.outq ++ [(s.startStep 1).valueOf p1])).setFlags
      ((s.startStep 1).flags.setOutput ((s.startStep 1).valueOf p1))) rfl
    (fun u => by
      rw [outputBody_ok]
      simp only [State.valReady_startStep, State.startStep_params, State.startStep_outq, State.executes,
        Bool.and_eq_true, and_assoc]) rfl rfl rfl
  have e : (((((s.startStep 1).growTo ((s.startStep 1).reach p1)).setOutq
      (s.outq ++ [(s.startStep 1).valueOf p1])).setFlags ((s.startStep 1).flags.setOutput
        ((s.startStep 1).valueOf p1))).setPc (s.pc + 1 + 1)).settle = s.after (.output p1) := by
    apply State.ext <;> simp [State.after, Flags.clear, Flags.setOutput, State.stores, State.takesJump, State.lenAfter,
      Instr.operands, Instr.opcode, Opcode.paramCount]
  dsimp only at this
  rw [e] at this
  simpa [Outcomes, State.goes, State.takesJump, Instr.opcode, Opcode.paramCount, exec, execOutput] using this

theorem execAdjustRelativeBase_outcomes (p1 : Operand) (s t : State) : Outcomes (.adjustRelativeBase p1) s t := by
  have := State.runStep_one (s := s) (t := t) (op := .adjustRelativeBase) (body := adjustBody p1)
    (ok := s.executes (.adjustRelativeBase p1))
    (r := ((s.startStep 1).growTo ((s.startStep 1).reach p1)).setRb (s.rb + s.valueOf p1)) rfl
    (fun u => by
      rw [adjustBody_ok]
      simp only [State.valReady_startStep, State.valueOf_startStep, State.startStep_rb, State.startStep_params,
        State.executes, Bool.and_eq_true, and_assoc]) rfl rfl rfl
  have e : ((((s.startStep 1).growTo ((s.startStep 1).reach p1)).setRb (s.rb + s.valueOf p1)).setPc
      (s.pc + 1 + 1)).settle = s.after (.adjustRelativeBase p1) := by
    apply State.ext <;> simp [State.after, Flags.clear, State.stores, State.takesJump, State.lenAfter, Instr.operands,
      Instr.opcode, Opcode.paramCount]
  dsimp only at this
  rw [e] at this
  simpa [Outcomes, State.goes, State.takesJump, Instr.opcode, Opcode.paramCount, exec, execAdjustRelativeBase] using this

theorem execInput_outcomes (p1 : Operand) (s t : State) : Outcomes (.input p1) s t := by
  have := State.runStep_one (s := s) (t := t) (op := .input) (body := inputBody p1) (ok := s.executes (.input p1))
    (r := ((s.startStep 1).setInq s.inq.tail).memWrite (s.cellOf p1) (s.inq.headD 0)) rfl
    (fun u => by
      rw [inputBody_ok]
      cases h : s.inq <;> simp [State.executes, h]) rfl rfl rfl
  dsimp only at this
  by_cases h1 : s.addrReady p1 = true
  · have e : ((((s.startStep 1).setInq s.inq.tail).memWrite (s.cellOf p1) (s.inq.headD 0)).setPc
        (s.pc + 1 + 1)).settle = s.after (.input p1) := by
      apply State.ext <;> simp [State.after, Flags.clear, State.stores, State.takesJump, State.lenAfter, Instr.operands,
        Instr.opcode, Opcode.paramCount, State.reach_of_addrReady h1]
    rw [e] at this
    simpa [Outcomes, State.goes, State.takesJump, Instr.opcode, Opcode.paramCount, exec, execInput] using this
  · have : ¬ s.executes (.input p1) = true := by simp [State.executes, h1]
    simp_all [Outcomes, State.goes, exec, execInput]

/-- Every instruction, on every state. -/
theorem exec_outcomes (i : Instr) (s t : State) : Outcomes i s t := by
  cases i with
  | add p1 p2 p3 => exact execAdd_outcomes p1 p2 p3 s t
  | mul p1 p2 p3 => exact execMul_outcomes p1 p2 p3 s t
  | lessThan p1 p2 p3 => exact execLessThan_outcomes p1 p2 p3 s t
  | equals p1 p2 p3 => exact execEquals_outcomes p1 p2 p3 s t
  | jumpIfTrue p1 p2 => exact execJumpIfTrue_outcomes p1 p2 s t
  | jumpIfFalse p1 p2 => exact execJumpIfFalse_outcomes p1 p2 s t
  | input p1 => exact execInput_outcomes p1 s t
  | output p1 => exact execOutput_outcomes p1 s t
  | adjustRelativeBase p1 => exact execAdjustRelativeBase_outcomes p1 s t
  | halt => exact execHalt_outcomes s t

/-- A step without a fault has gone through. -/
theorem exec_goes {i : Instr} {s t : State} (h : exec i s = .next t) (hf : t.status ≠ .faulted) :
    s.goes i ∧ t = s.after i := by
  rcases (exec_outcomes i s t).2 h with h' | ⟨-, e, rfl⟩
  · exact h'
  · exact absurd rfl hf

end Sys2Proof.Machine
end

