-- ==== Sys2Proof/Laws/PerInstr.lean ====
section
/-! SUPPORT. What is said of each instruction as syntax: the shape of its encoding (R51, R72). -/

namespace Sys2Proof.Laws.EncodeShape

/-- An instruction of n parameters has n operands, each with a role, and takes 1 + n cells whatever the modes are. -/
def Statement (i : Instr) : Prop :=
  i.operands.length = i.opcode.paramCount ∧ i.opcode.roles.length = i.opcode.paramCount ∧
    (encode i).length = 1 + i.opcode.paramCount

theorem add (p1 p2 p3 : Operand) : Statement (.add p1 p2 p3) := ⟨rfl, rfl, rfl⟩
theorem mul (p1 p2 p3 : Operand) : Statement (.mul p1 p2 p3) := ⟨rfl, rfl, rfl⟩
theorem input (p1 : Operand) : Statement (.input p1) := ⟨rfl, rfl, rfl⟩
theorem output (p1 : Operand) : Statement (.output p1) := ⟨rfl, rfl, rfl⟩
theorem jumpIfTrue (p1 p2 : Operand) : Statement (.jumpIfTrue p1 p2) := ⟨rfl, rfl, rfl⟩
theorem jumpIfFalse (p1 p2 : Operand) : Statement (.jumpIfFalse p1 p2) := ⟨rfl, rfl, rfl⟩
theorem lessThan (p1 p2 p3 : Operand) : Statement (.lessThan p1 p2 p3) := ⟨rfl, rfl, rfl⟩
theorem equals (p1 p2 p3 : Operand) : Statement (.equals p1 p2 p3) := ⟨rfl, rfl, rfl⟩
theorem adjustRelativeBase (p1 : Operand) : Statement (.adjustRelativeBase p1) := ⟨rfl, rfl, rfl⟩
theorem halt : Statement .halt := ⟨rfl, rfl, rfl⟩

end Sys2Proof.Laws.EncodeShape
end

