-- ==== Sys2Proof/Tests/Slice0.lean ====
section
/-! SUPPORT. Tests of the model, their expected results taken from the vectors of 95_test_vectors.md or worked from the
rules cited, and for each statement a state and operands that meet its hypotheses. -/

namespace Sys2Proof.Tests

open Sys2Proof.Machine

def pos (w : Word) : Operand := { mode := .position, word := w }
def imm (w : Word) : Operand := { mode := .immediate, word := w }
def rel (w : Word) : Operand := { mode := .relative, word := w }
def bad (d : Nat) (w : Word) : Operand := { mode := .undefined d, word := w }

/-- The engine with a program and default parameters. -/
def boot (program : List Word) : State :=
  { State.reset with mem := Memory.ofWords 0 program, len := program.length }

/-- The same with other parameters. -/
def bootWith (c : Config) (program : List Word) : State := { boot program with params := c }

/-- Words of 4 bits: -8 to 7. -/
def nibble : Config := { Config.default with wordBits := some 4 }
def word64 : Config := { Config.default with wordBits := some 64 }
def cells50 : Config := { Config.default with memCells := some 50 }
def oneOut : Config := { Config.default with outCapacity := some 1 }
def oneIn : Config := { Config.default with inCapacity := some 1 }

/-- A fault record as 95_test_vectors.md writes it. -/
def faultOf (code : FaultCode) (fpc raw : Word) (param : Nat) (info : Word) : FaultRecord :=
  { code := code, fpc := fpc, raw := raw, param := param, info := info }

/-! ### Well-formedness: each check refuses an ill-formed term -/

theorem test_wf_val_undefined :
    (Instr.add (bad 3 0) (imm 0) (pos 0)).wellFormed = false ∧ (Instr.mul (imm 0) (bad 9 0) (pos 0)).wellFormed = false ∧
    (Instr.output (bad 3 0)).wellFormed = false ∧ (Instr.jumpIfTrue (imm 0) (bad 4 0)).wellFormed = false ∧
    (Instr.jumpIfFalse (bad 5 0) (imm 0)).wellFormed = false ∧
    (Instr.adjustRelativeBase (bad 6 0)).wellFormed = false := by decide

theorem test_wf_addr_immediate :
    (Instr.add (imm 0) (imm 0) (imm 0)).wellFormed = false ∧ (Instr.mul (imm 0) (imm 0) (imm 0)).wellFormed = false ∧
    (Instr.lessThan (imm 0) (imm 0) (imm 0)).wellFormed = false ∧
    (Instr.equals (imm 0) (imm 0) (imm 0)).wellFormed = false ∧ (Instr.input (imm 0)).wellFormed = false := by decide

theorem test_wf_addr_undefined :
    (Instr.input (bad 3 0)).wellFormed = false ∧ (Instr.equals (imm 0) (imm 0) (bad 7 0)).wellFormed = false := by decide

theorem test_wf_accepts :
    (Instr.add (pos 0) (imm 1) (rel (-1))).wellFormed = true ∧ (Instr.input (rel 0)).wellFormed = true ∧
    Instr.halt.wellFormed = true := by decide

theorem test_encodable :
    (Instr.output (bad 9 0)).encodable = true ∧ (Instr.output (bad 10 0)).encodable = false ∧
    (Instr.output (bad 2 0)).encodable = false := by decide

/-! ### Decoder (vectors 2.1) -/

/-- What a word decodes to before cells 7, 8, 9. -/
def decoded (raw : Word) : Option Instr :=
  match decode [raw, 7, 8, 9] with
  | .ok (i, _) => some i
  | .error _ => none

/-- The info of the unknown opcode a word is refused with. -/
def refusedInfo (raw : Word) : Option Word :=
  match decode [raw, 7, 8, 9] with
  | .ok _ => none
  | .error (.unknownOpcode info) => some info
  | .error .truncated => none

theorem test_decode_add : decoded 1 = some (.add (pos 7) (pos 8) (pos 9)) := by decide
theorem test_decode_add_modes : decoded 21101 = some (.add (imm 7) (imm 8) (rel 9)) := by decide
theorem test_decode_mul : decoded 1002 = some (.mul (pos 7) (imm 8) (pos 9)) := by decide
theorem test_decode_input : decoded 203 = some (.input (rel 7)) := by decide
theorem test_decode_output : decoded 90104 = some (.output (imm 7)) := by decide
theorem test_decode_jumpIfTrue : decoded 1105 = some (.jumpIfTrue (imm 7) (imm 8)) := by decide
theorem test_decode_jumpIfFalse : decoded 2206 = some (.jumpIfFalse (rel 7) (rel 8)) := by decide
theorem test_decode_lessThan : decoded 22207 = some (.lessThan (rel 7) (rel 8) (rel 9)) := by decide
theorem test_decode_equals : decoded 1108 = some (.equals (imm 7) (imm 8) (pos 9)) := by decide
theorem test_decode_adjustRelativeBase : decoded 209 = some (.adjustRelativeBase (rel 7)) := by decide
theorem test_decode_halt : decoded 99 = some .halt ∧ decoded 12399 = some .halt := by decide
theorem test_decode_faulting_modes :
    decoded 11101 = some (.add (imm 7) (imm 8) (imm 9)) ∧ decoded 103 = some (.input (imm 7)) ∧
    decoded 3901 = some (.add (bad 9 7) (bad 3 8) (pos 9)) := by decide
theorem test_decode_unknown :
    refusedInfo 0 = some 0 ∧ refusedInfo 10 = some 10 ∧ refusedInfo 1198 = some 98 ∧ refusedInfo 100 = some 0 ∧
    refusedInfo (-1) = some (-1) ∧ refusedInfo (-99) = some (-99) := by decide
theorem test_encode : encode (.add (imm 7) (imm 8) (rel 9)) = [21101, 7, 8, 9] ∧ encode .halt = [99] ∧
    encode (.jumpIfFalse (pos 1) (rel 2)) = [2006, 1, 2] := by decide

/-! ### The table's words, and the first step after reset -/

theorem test_table_words :
    decodeTableWord 8 1 = some (.add (pos 0) (pos 0) (pos 0)) ∧ decodeTableWord 8 2 = some (.mul (pos 0) (pos 0) (pos 0)) ∧
    decodeTableWord 8 3 = some (.input (pos 0)) ∧ decodeTableWord 8 4 = some (.output (pos 0)) ∧
    decodeTableWord 8 5 = some (.jumpIfTrue (pos 0) (pos 0)) ∧ decodeTableWord 8 6 = some (.jumpIfFalse (pos 0) (pos 0)) ∧
    decodeTableWord 8 7 = some (.lessThan (pos 0) (pos 0) (pos 0)) ∧
    decodeTableWord 8 8 = some (.equals (pos 0) (pos 0) (pos 0)) ∧
    decodeTableWord 8 9 = some (.adjustRelativeBase (pos 0)) ∧ decodeTableWord 8 99 = some .halt ∧
    decodeTableWord 8 0 = none := by decide

/-- Word 1 placed at reset adds cell 0 to itself in cell 0. -/
theorem test_first_step_add :
    (stepState (State.reset.withFetchWord 8 1)).mem = [(0, 2)] ∧ (stepState (State.reset.withFetchWord 8 1)).pc = 4 := by
  decide

theorem test_first_step_halt : (stepState (State.reset.withFetchWord 8 99)).status = .halted := by decide

/-- A word placed in a halted engine runs too. -/
theorem test_first_step_after_halt :
    (stepState ((stepState (boot [99])).withFetchWord 16 1101)).status = .running := by decide

/-! ### One step of each instruction (vectors 2.3 to 2.8) -/

/-- V-ADD-1. -/
theorem test_add : (stepState (boot [1101, -5, 3, 5, 99, 0])).mem.read 5 = -2 ∧
    (stepState (boot [1101, -5, 3, 5, 99, 0])).pc = 4 := by decide
/-- V-ADD-4: the exact sum is the info, and nothing is written. -/
theorem test_add_out_of_range :
    (stepState (bootWith word64 [1101, 9223372036854775807, 1, 5, 99, 0])).fault =
      faultOf .valueOutOfRange 0 1101 0 9223372036854775808 := by decide
/-- V-MUL-1. -/
theorem test_mul : (stepState (boot [1102, -4, -6, 5, 99, 0])).mem.read 5 = 24 := by decide
/-- V-MUL-5. -/
theorem test_mul_undefined_mode :
    (stepState (boot [302, 0, 0, 0, 99])).fault = faultOf .undefinedMode 0 302 1 3 := by decide
/-- The destination 2 of V-IO-5 with rb 3. -/
theorem test_input : (stepState { boot [203, 2, 99] with rb := 3, inq := [9, 8] }).mem.read 5 = 9 ∧
    (stepState { boot [203, 2, 99] with rb := 3, inq := [9, 8] }).inq = [8] := by decide
/-- V-IO-4. -/
theorem test_input_immediate : (stepState (boot [103, 5, 99])).fault = faultOf .invalidAddressingMode 0 103 1 5 := by
  decide
/-- V-IO-8: a read beyond the program outputs 0 and extends memory. -/
theorem test_output : (stepState (boot [4, 50, 99])).outq = [0] ∧ (stepState (boot [4, 50, 99])).len = 51 := by decide
/-- V-IO-9, its second step. -/
theorem test_output_full :
    (stepState { bootWith oneOut [104, 1, 104, 2, 99] with pc := 2, outq := [1] }).fault =
      faultOf .outputOverflow 2 104 0 2 := by decide
/-- V-JMP-6. -/
theorem test_jumpIfTrue : (stepState (boot [5, 5, 6, 99, 0, 1, 7, 99])).pc = 7 := by decide
/-- V-JMP-7, its second step: a jump to -3 is legal, the fetch after it is not. -/
theorem test_jumpIfTrue_negative_target :
    (stepState (boot [1105, 1, -3])).pc = -3 ∧
    (stepState { boot [1105, 1, -3] with pc := -3 }).fault = faultOf .negativeAddress (-3) 0 0 (-3) := by decide
/-- V-JMP-4. -/
theorem test_jumpIfFalse : (stepState (boot [1106, 0, 4, 0, 99])).pc = 4 := by decide
/-- V-JMP-5, its first step. -/
theorem test_jumpIfFalse_not_taken : (stepState (boot [1106, 5, 4, 0, 99])).pc = 3 := by decide
/-- V-CMP-3. -/
theorem test_lessThan : (stepState (boot [1107, -1, 0, 5, 99, 7])).mem.read 5 = 1 := by decide
/-- V-CMP-4. -/
theorem test_lessThan_not : (stepState (boot [1107, 0, -1, 5, 99, 7])).mem.read 5 = 0 := by decide
/-- V-CMP-8: the result goes to the cell that cell 3 names. -/
theorem test_equals : (stepState (boot [8, 5, 6, 7, 99, 8, 8, -1])).mem.read 7 = 1 := by decide
/-- V-CMP-5. -/
theorem test_equals_not : (stepState (boot [1108, -5, 5, 5, 99, 9])).mem.read 5 = 0 := by decide
/-- V-RB-3, its second step: the operand is read at the old rb. -/
theorem test_adjustRelativeBase : (stepState { boot [109, 5, 209, 1, 99, 0, 3, 99] with pc := 2, rb := 5 }).rb = 8 := by
  decide
/-- V-RB-2. -/
theorem test_adjustRelativeBase_negative : (stepState (boot [109, -4, 99])).rb = -4 := by decide
/-- V-SEQ-1. -/
theorem test_halt : (stepState (boot [12399])).status = .halted ∧ (stepState (boot [12399])).pc = 0 := by decide

/-- V-SEQ-5: yield, then halt, then nothing more. -/
theorem test_resume :
    (perform 5 (.resume []) (boot [104, 1, 99])).map (fun x => x.1) = some (.yielded 1) ∧
    ((perform 5 (.resume []) (boot [104, 1, 99])).bind fun x => perform 5 (.resume []) x.2).map (fun x => x.2.status) =
      some .halted := by decide

/-- R87: with no words to append, RUN and RESUME step even where a supplied device holds more than IN_CAPACITY; with a
word, they are rejected. -/
theorem test_run_over_full :
    let s := { bootWith oneIn [99] with inq := [1, 2] }
    (perform 1 (.run []) s).map (fun x => (x.2.status, x.2.inq)) = some (.halted, [1, 2]) ∧
    (perform 1 (.resume []) s).map (fun x => x.2.status) = some .halted ∧
    (perform 1 (.run [3]) s).map (fun x => x.1) = some .rejected := by decide

/-- P8 in small: engine 0 writes 10 into the device engine 1 reads. -/
def twoEngines : Network :=
  { nodes := [{ own := boot [104, 10], inDev := 0, outDev := 1 }, { own := boot [3, 20], inDev := 1, outDev := 2 }]
    devices := [[], [4], []] }

theorem test_shared_device :
    (twoEngines.update 0 stepState).devices = [[], [4, 10], []] ∧
    (((twoEngines.update 0 stepState).update 1 stepState).view 1).mem.read 20 = 4 := by decide

/-! ### Witnesses: what meets the hypotheses of each statement -/

theorem witness_DecodeEncodeRoundTrip :
    (Instr.add (pos 0) (imm 1) (rel 2)).wellFormed = true ∧ (Instr.add (bad 9 0) (bad 3 1) (imm 2)).encodable = true := by
  decide

theorem witness_EncodeOfDecodedWord :
    ∃ i rest, decode [90104, 7, 8] = .ok (i, rest) := ⟨_, _, rfl⟩

theorem witness_HighDigitsIgnored : Opcode.ofId (12399 % 100) = some .halt ∧ Opcode.ofId (1 % 100) = some .add := by decide

theorem witness_StepRunsDecodedInstruction :
    let s := bootWith cells50 [1101, 1, 2, 3]
    s.live = true ∧ validAddr s.params s.pc = true ∧ s.paramCellsReady 3 = true ∧
    ∃ i rest, decode [s.mem.read s.pc.toNat, s.mem.read (s.pc + 1).toNat, s.mem.read (s.pc + 2).toNat,
      s.mem.read (s.pc + 3).toNat] = .ok (i, rest) ∧ i.opcode.paramCount = 3 :=
  ⟨rfl, rfl, rfl, _, _, rfl, rfl⟩

/-- An opcode fetch just below 0, and just beyond memory. -/
theorem witness_FetchFaultsInOrder_opcode :
    ({ boot [] with pc := -1 } : State).live = true ∧ ({ boot [] with pc := -1 } : State).pc < 0 ∧
    cells50.memCells = some 50 ∧ ((50 : Nat) : Int) ≤ ({ bootWith cells50 [] with pc := 50 } : State).pc := by decide

/-- The first parameter cell is no word (8 in words of 4 bits). -/
theorem witness_FetchFaultsInOrder_range :
    let s := { bootWith nibble [] with pc := 7, mem := [(7, 1)] }
    s.live = true ∧ validAddr s.params s.pc = true ∧ 0 ≤ s.mem.read s.pc.toNat ∧
    (s.mem.read s.pc.toNat).toNat % 100 = Opcode.add.id ∧ 0 < Opcode.add.paramCount ∧ s.paramCellsReady 0 = true ∧
    representable s.params (s.pc + (0 + 1 : Nat)) = false := by decide

/-- The third parameter cell is the first cell beyond memory. -/
theorem witness_FetchFaultsInOrder_capacity :
    let s := { bootWith cells50 [] with pc := 47, mem := [(47, 1)] }
    s.live = true ∧ validAddr s.params s.pc = true ∧ 0 ≤ s.mem.read s.pc.toNat ∧
    (s.mem.read s.pc.toNat).toNat % 100 = Opcode.add.id ∧ 2 < Opcode.add.paramCount ∧ s.paramCellsReady 2 = true ∧
    representable s.params (s.pc + (2 + 1 : Nat)) = true ∧ s.params.memCells = some 50 ∧
    ((50 : Nat) : Int) ≤ s.pc + (2 + 1 : Nat) := by decide

theorem witness_UnknownOpcodeFaults :
    ((boot [-1]).live = true ∧ validAddr (boot [-1]).params (boot [-1]).pc = true ∧
      (boot [-1]).mem.read (boot [-1]).pc.toNat < 0) ∧
    (0 ≤ (boot [0]).mem.read 0 ∧ ((boot [0]).mem.read 0).toNat % 100 ∉ [1, 2, 3, 4, 5, 6, 7, 8, 9, 99]) ∧
    ((boot [1198]).mem.read 0).toNat % 100 ∉ [1, 2, 3, 4, 5, 6, 7, 8, 9, 99] := by decide

theorem witness_EveryStepAnswersNext : (boot [99]).live = true := by decide

theorem witness_FaultCommitsNothing :
    (boot [0]).live = true ∧ ∃ t, step (boot [0]) = .next t ∧ t.status = .faulted := ⟨rfl, _, rfl, rfl⟩

/-- A step that goes through and one that does not. -/
theorem witness_CompletesExactly :
    (∃ t, exec (.add (imm 1) (imm 2) (pos 3)) (boot []) = .next t ∧ t.status ≠ .faulted) ∧
    ∃ t, exec (.input (pos 3)) (boot []) = .next t ∧ t.status = .faulted :=
  ⟨⟨_, rfl, by decide⟩, _, rfl, rfl⟩

theorem witness_DefaultAdvance :
    ∃ t, exec (.jumpIfTrue (imm 0) (imm 9)) (boot []) = .next t ∧ t.status ≠ .faulted ∧ t.flags.jump = false ∧
      t.flags.halt = false := ⟨_, rfl, by decide, rfl, rfl⟩

/-- In words of 4 bits, 4 + 4 is no word. -/
theorem witness_AdvanceOutOfRange :
    let s := { bootWith nibble [] with pc := 4 }
    s.executes (.add (imm 1) (imm 2) (pos 3)) = true ∧ Instr.add (imm 1) (imm 2) (pos 3) ≠ .halt ∧
    s.takesJump (.add (imm 1) (imm 2) (pos 3)) = false ∧ representable s.params (s.pc + 1 + 3) = false ∧
    Config.default.wordBits = none := by decide

theorem witness_FlagsAfterStep :
    (∃ t, exec (.jumpIfTrue (imm 1) (imm 9)) (boot []) = .next t ∧ t.status ≠ .faulted ∧ t.flags.jump = true) ∧
    (∃ t, exec (.output (imm 9)) (boot []) = .next t ∧ t.status ≠ .faulted ∧ t.flags.vout = some 9) ∧
    ∃ t, exec .halt (boot []) = .next t ∧ t.status ≠ .faulted ∧ t.flags.halt = true :=
  ⟨⟨_, rfl, by decide, rfl⟩, ⟨_, rfl, by decide, rfl⟩, _, rfl, by decide, rfl⟩

theorem witness_InstructionsReadNoFlag :
    ∃ t, exec (.output (imm 9)) (boot []) = .next t := ⟨_, rfl⟩

theorem witness_LengthIsInvisible :
    ∃ t, exec (.output (pos 50)) (boot []) = .next t ∧ t.len = 51 := ⟨_, rfl, rfl⟩

theorem witness_RegisterWriters :
    ∃ t, exec (.adjustRelativeBase (imm 5)) (boot []) = .next t ∧ t.rb = 5 ∧ t.flags.jump = false := ⟨_, rfl, rfl, rfl⟩

theorem witness_ParametersNeverChange :
    (∃ t, step (boot [99]) = .next t) ∧ ∃ r t, perform 2 (.run [1]) (boot [99]) = some (r, t) := ⟨⟨_, rfl⟩, _, _, rfl⟩

/-- Both ends of the 4-bit range: -8 + 7 and 7 + 0. -/
theorem witness_AddStoresSum :
    let s := { bootWith nibble [] with rb := 2, mem := [(4, -8)], len := 5 }
    s.valReady (pos 4) = true ∧ s.valReady (imm 7) = true ∧ s.addrReady (rel 1) = true ∧
    representable s.params (s.valueOf (pos 4) + s.valueOf (imm 7)) = true ∧
    representable s.params (s.valueOf (imm 7) + s.valueOf (pos 5)) = true ∧
    representable s.params (s.pc + 4) = true := by decide

theorem witness_MulStoresProduct :
    let s := { bootWith nibble [] with mem := [(4, -4)], len := 5 }
    s.valReady (pos 4) = true ∧ s.valReady (imm 2) = true ∧ s.addrReady (pos 4) = true ∧
    representable s.params (s.valueOf (pos 4) * s.valueOf (imm 2)) = true ∧ representable s.params (s.pc + 4) = true := by
  decide

theorem witness_InputPopsOldest :
    let s := { boot [3, 0] with inq := [7, 8] }
    s.addrReady (pos 0) = true ∧ s.inq = 7 :: [8] ∧ representable s.params (s.pc + 2) = true := by decide

/-- The last free place of a FIFO of one word. -/
theorem witness_OutputAppends :
    let s := bootWith oneOut [104, 1]
    s.valReady (imm 1) = true ∧ fits s.params.outCapacity (s.outq.length + 1) = true ∧
    representable s.params (s.pc + 2) = true := by decide

theorem witness_JumpIfTrueBranches :
    let s := bootWith nibble []
    s.valReady (imm (-1)) = true ∧ s.valReady (imm 7) = true ∧ s.valueOf (imm (-1)) ≠ 0 ∧ s.valueOf (imm 0) = 0 ∧
    representable s.params (s.pc + 3) = true := by decide

theorem witness_JumpIfFalseBranches :
    let s := bootWith nibble []
    s.valReady (pos 4) = true ∧ s.valReady (rel 7) = true ∧ s.valueOf (pos 4) = 0 ∧ s.valueOf (imm (-1)) ≠ 0 ∧
    representable s.params (s.pc + 3) = true := by decide

theorem witness_LessThanStoresOneOrZero :
    let s := bootWith cells50 []
    s.valReady (imm (-1)) = true ∧ s.valReady (pos 49) = true ∧ s.addrReady (pos 49) = true ∧
    representable s.params (s.pc + 4) = true := by decide

theorem witness_EqualsStoresOneOrZero :
    let s := { bootWith cells50 [] with rb := 50 }
    s.valReady (rel (-1)) = true ∧ s.valReady (imm 0) = true ∧ s.addrReady (rel (-50)) = true ∧
    representable s.params (s.pc + 4) = true := by decide

theorem witness_AdjustRelativeBaseAdds :
    let s := { bootWith nibble [] with rb := 4 }
    s.valReady (imm 3) = true ∧ representable s.params (s.rb + s.valueOf (imm 3)) = true ∧
    representable s.params (s.pc + 2) = true := by decide

theorem witness_ComparesWriteZeroOrOne :
    (boot [9]).mem.wf ∧ ∃ t, exec (.lessThan (imm 1) (imm 2) (pos 3)) (boot [9]) = .next t ∧ t.status ≠ .faulted :=
  ⟨by decide, _, rfl, by decide⟩

theorem witness_StoringFrame :
    (∃ t, exec (.mul (imm 2) (imm 3) (rel 5)) (boot []) = .next t ∧ t.status ≠ .faulted) ∧
    (∃ t, exec (.equals (imm 2) (imm 3) (pos 5)) (boot []) = .next t ∧ t.status ≠ .faulted) ∧
    ∃ t, exec (.input (pos 5)) { boot [] with inq := [1] } = .next t ∧ t.status ≠ .faulted :=
  ⟨⟨_, rfl, by decide⟩, ⟨_, rfl, by decide⟩, _, rfl, by decide⟩

theorem witness_NonStoringFrame :
    (∃ t, exec (.output (pos 2)) (boot []) = .next t ∧ t.status ≠ .faulted) ∧
    (∃ t, exec (.jumpIfFalse (imm 2) (imm 3)) (boot []) = .next t ∧ t.status ≠ .faulted) ∧
    (∃ t, exec (.adjustRelativeBase (imm 2)) (boot []) = .next t ∧ t.status ≠ .faulted) ∧
    ∃ t, exec .halt (boot []) = .next t ∧ t.status ≠ .faulted :=
  ⟨⟨_, rfl, by decide⟩, ⟨_, rfl, by decide⟩, ⟨_, rfl, by decide⟩, _, rfl, by decide⟩

theorem witness_ImmediateDestinationFaults :
    (imm 5).mode = .immediate ∧ (boot []).valReady (imm 1) = true ∧ (boot []).valReady (pos 0) = true := by decide

/-- The first and the last digit, on the first and the last parameter. -/
theorem witness_UndefinedModeFaults :
    ((Instr.add (bad 3 0) (imm 0) (pos 0)).operands[0]? = some (bad 3 0) ∧ (bad 3 0).mode = .undefined 3) ∧
    (Instr.add (imm 0) (pos 1) (bad 9 0)).operands[2]? = some (bad 9 0) ∧ (bad 9 0).mode = .undefined 9 ∧
    (boot []).valReady (imm 0) = true ∧ (boot []).valReady (pos 1) = true := by decide

/-- Just below 0 and just beyond memory, in both modes that have an address. -/
theorem witness_InvalidAddressFaults :
    let s := { bootWith cells50 [] with rb := 10 }
    ((pos (-1)).mode = .position ∧ ((-1 : Word) = (pos (-1)).word) ∧ (-1 : Word) < 0) ∧
    ((rel (-11)).mode = .relative ∧ (-1 : Word) = s.rb + (rel (-11)).word ∧ representable s.params (-1) = true) ∧
    ((rel 40).mode = .relative ∧ (50 : Word) = s.rb + (rel 40).word ∧ s.params.memCells = some 50 ∧
      ((50 : Nat) : Int) ≤ 50) ∧
    (Instr.add (imm 1) (imm 2) (rel 40)).operands[2]? = some (rel 40) ∧ s.valReady (imm 1) = true := by decide

theorem witness_RelativeSumOutOfRange :
    let s := { bootWith nibble [] with rb := 7 }
    (Instr.output (rel 1)).operands[0]? = some (rel 1) ∧ (rel 1).mode = .relative ∧
    representable s.params (s.rb + (rel 1).word) = false := by decide

theorem witness_ResultOutOfRange :
    let s := { bootWith nibble [] with rb := 7 }
    s.valReady (imm 4) = true ∧ s.valReady (imm 2) = true ∧ s.addrReady (pos 0) = true ∧
    representable s.params (s.valueOf (imm 7) + s.valueOf (imm 1)) = false ∧
    representable s.params (s.valueOf (imm 4) * s.valueOf (imm 2)) = false ∧
    representable s.params (s.rb + s.valueOf (imm 1)) = false := by decide

theorem witness_EmptyInputFaults : (boot []).addrReady (pos 5) = true ∧ (boot []).inq = [] := by decide

theorem witness_FullOutputFaults :
    let s := { bootWith oneOut [] with outq := [3] }
    (s.valReady (imm 1) = true ∧ s.params.outCapacity = some 1 ∧ s.outq.length = 1) ∧ (boot []).params.outCapacity = none ∧
    (∃ t, exec (.output (bad 3 0)) (boot []) = .next t ∧ t.status = .faulted) := ⟨by decide, rfl, _, rfl, rfl⟩

theorem witness_FaultCausesAreReal :
    (∃ t, step (boot [4, -1]) = .next t ∧ t.status = .faulted ∧ t.fault.code = .negativeAddress) ∧
    (∃ t, step (bootWith cells50 [4, 50]) = .next t ∧ t.status = .faulted ∧ t.fault.code = .capacityExceeded) ∧
    (∃ t, step (bootWith word64 [109, 9223372036854775808]) = .next t ∧ t.status = .faulted ∧
      t.fault.code = .valueOutOfRange) ∧
    ∃ t, step { bootWith oneOut [104, 1] with outq := [3] } = .next t ∧ t.status = .faulted ∧
      t.fault.code = .outputOverflow :=
  ⟨⟨_, rfl, rfl, rfl⟩, ⟨_, rfl, rfl, rfl⟩, ⟨_, rfl, rfl, rfl⟩, _, rfl, rfl, rfl⟩

theorem witness_FaultsByInstruction :
    (∃ t, exec (.input (imm 0)) (boot []) = .next t ∧ t.status = .faulted ∧ t.fault.code = .invalidAddressingMode) ∧
    (∃ t, exec (.input (pos 0)) (boot []) = .next t ∧ t.status = .faulted ∧ t.fault.code = .inputExhausted) ∧
    ∃ t, exec (.output (imm 0)) { bootWith oneOut [] with outq := [3] } = .next t ∧ t.status = .faulted ∧
      t.fault.code = .outputOverflow :=
  ⟨⟨_, rfl, rfl, rfl⟩, ⟨_, rfl, rfl, rfl⟩, _, rfl, rfl, rfl⟩

/-- An engine that has run a step and has the invariant, with words in memory and both FIFOs. -/
def steady : State :=
  { bootWith { wordBits := some 8, memCells := some 50, inCapacity := some 1, outCapacity := some 1 } [104, 7, 99] with
    pc := 2, rb := -3, status := .suspended, inq := [5], outq := [7]
    flags := { jump := false, halt := false, output := true, vout := some 7 } }

theorem witness_StepKeepsInvariant : steady.Inv ∧ ∃ t, step steady = .next t ∧ t.status = .halted :=
  ⟨by constructor <;> decide, _, rfl, rfl⟩

theorem witness_ReadBeyondLength : steady.Inv ∧ steady.len ≤ 3 := ⟨by constructor <;> decide, by decide⟩

/-- A LOAD with a device that is just full, and a RUN. -/
theorem witness_CommandsKeepInvariant :
    steady.Inv ∧ (Command.load [99] (some [1]) (some [2])).devicesOk steady.params = true ∧
    (∃ r t, perform 1 (.load [99] (some [1]) (some [2])) steady = some (r, t) ∧ r = .accepted) ∧
    ∃ r t, perform 1 (.run []) steady = some (r, t) ∧ t.status = .halted :=
  ⟨by constructor <;> decide, by decide, ⟨_, _, rfl, rfl⟩, _, _, rfl, rfl⟩

theorem witness_MemoryIsWhatItReads :
    Memory.wf [(5, 1)] ∧ ∀ a, Memory.read [(5, 1)] a = Memory.read (Memory.write [] 5 1) a := ⟨by decide, fun _ => rfl⟩

/-- P4: the first step writes the 99 that the second one runs. -/
theorem witness_StoredWordIsDecoded :
    (boot [1101, 100, -1, 4, 4, 0, 99]).mem.wf ∧
    ∃ t, exec (.add (imm 100) (imm (-1)) (pos 4)) (boot [1101, 100, -1, 4, 4, 0, 99]) = .next t ∧ t.status = .running ∧
      (boot [1101, 100, -1, 4, 4, 0, 99]).stores (.add (imm 100) (imm (-1)) (pos 4)) = some (4, 99) ∧
      t.pc = (4 : Nat) ∧ validAddr t.params t.pc = true ∧
      (∃ rest, decode [99, t.mem.read 5, t.mem.read 6, t.mem.read 7] = .ok (.halt, rest)) ∧
      t.paramCellsReady 0 = true :=
  ⟨by decide, _, rfl, rfl, rfl, rfl, rfl, ⟨_, rfl⟩, rfl⟩

/-- P2: 7 + 8 to rb + 3, then an output of it. -/
theorem witness_RelativeRoundTrip :
    let s := { boot [] with rb := 10 }
    s.mem.wf ∧ (Instr.add (imm 7) (imm 8) (rel 3)).operands.getLast? = some (rel 3) ∧
    s.stores (.add (imm 7) (imm 8) (rel 3)) = some (13, 15) ∧
    ∃ t, exec (.add (imm 7) (imm 8) (rel 3)) s = .next t ∧ t.status ≠ .faulted ∧
      ∃ u, exec (.output (rel 3)) t = .next u ∧ u.status ≠ .faulted :=
  ⟨by decide, rfl, rfl, _, rfl, by decide, _, rfl, by decide⟩

/-- A program that just fits, one that does not, and one with a word that is too large. -/
theorem witness_LoadResets :
    ((∀ w ∈ [(-8 : Word), 7], representable nibble w = true) ∧ fits (some 2) [(-8 : Word), 7].length = true) ∧
    fits (some 1) [(-8 : Word), 7].length = false ∧ (∃ w ∈ [(8 : Word)], representable nibble w = false) := by decide

theorem witness_EmptyProgramFaults : { Config.default with memCells := some 1 }.memCells ≠ some 0 := by decide

theorem witness_FinalEnginesStay :
    ({ boot [99] with status := .halted } : State).live = false ∧
    ({ boot [99] with status := .faulted } : State).live = false := by decide

/-- The last cell of memory and the first beyond it; the largest word and the first beyond it. -/
theorem witness_HostMemoryAccess :
    let s := bootWith cells50 [99]
    validAddr s.params 49 = true ∧ validAddr s.params 50 = false ∧ validAddr s.params (-1) = false ∧ s.mem.wf ∧
    representable nibble 7 = true ∧ representable nibble 8 = false := by decide

theorem witness_FifoCommands :
    let s := bootWith oneIn []
    (representable s.params 3 = true ∧ fits s.params.inCapacity (s.inq.length + 1) = true) ∧
    (s.params.inCapacity = some 1 ∧ ({ s with inq := [3] } : State).inq.length = 1) ∧
    ({ s with outq := [3, 4] } : State).outq = 3 :: [4] ∧ s.outq = [] := by decide

theorem witness_StepCommandReports : (boot [104, 7]).live = true ∧ ∃ t, step (boot [104, 7]) = .next t := ⟨rfl, _, rfl⟩

theorem witness_RunEndsFinal :
    (∃ r t, perform 1 (.run [1]) (boot [99]) = some (r, t) ∧ t.status = .halted) ∧
    ∃ r t, perform 1 (.run [1]) { bootWith oneIn [99] with inq := [2] } = some (r, t) ∧ r = .rejected :=
  ⟨⟨_, _, rfl, rfl⟩, _, _, rfl, rfl⟩

/-- A first step that ends the engine, one that outputs, and one that does neither. -/
theorem witness_RunAndResumeUnfold :
    ((boot [99]).live = true ∧ ∃ s' t, (boot [99]).pushInputs [1] = some s' ∧ step s' = .next t ∧ t.live = false) ∧
    (∃ s' t, (boot [104, 7]).pushInputs [1] = some s' ∧ step s' = .next t ∧ t.live = true ∧ t.flags.vout = some 7) ∧
    ∃ s' t, (boot [3, 7]).pushInputs [1] = some s' ∧ step s' = .next t ∧ t.live = true ∧ t.flags.vout = none :=
  ⟨⟨rfl, _, _, rfl, rfl, rfl⟩, ⟨_, _, rfl, rfl, rfl, rfl⟩, _, _, rfl, rfl, rfl, rfl⟩

theorem witness_ResumeReturns :
    (∃ r t, perform 1 (.resume []) (boot [104, 7]) = some (r, t) ∧ r = .yielded 7) ∧
    (∃ r t, perform 1 (.resume []) (boot [99]) = some (r, t) ∧ t.status = .halted) ∧
    ∃ r t, perform 1 (.resume [1]) { bootWith oneIn [99] with inq := [2] } = some (r, t) ∧ r = .rejected :=
  ⟨⟨_, _, rfl, rfl⟩, ⟨_, _, rfl, rfl⟩, _, _, rfl, rfl⟩

theorem witness_StatusTransitions :
    (boot [99]).live = true ∧ (∃ r t, perform 1 .step (boot [99]) = some (r, t)) ∧
    (∃ r t, perform 1 (.run []) (boot [99]) = some (r, t)) ∧ (∃ r t, perform 1 (.resume []) (boot [99]) = some (r, t)) ∧
    (∃ r t, perform 1 (.load [99] none none) (boot []) = some (r, t)) ∧
    (∃ r t, perform 1 (.inPush 1) (boot []) = some (r, t)) ∧ (∃ r t, perform 1 .outPop (boot []) = some (r, t)) ∧
    (∃ r t, perform 1 (.memGet 1) (boot []) = some (r, t)) ∧ (∃ r t, perform 1 (.memSet 1 1) (boot []) = some (r, t)) ∧
    ∃ r t, perform 1 .readStatus (boot []) = some (r, t) :=
  ⟨rfl, ⟨_, _, rfl⟩, ⟨_, _, rfl⟩, ⟨_, _, rfl⟩, ⟨_, _, rfl⟩, ⟨_, _, rfl⟩, ⟨_, _, rfl⟩, ⟨_, _, rfl⟩, ⟨_, _, rfl⟩, _, _, rfl⟩

theorem witness_EnginesAreIsolated :
    (∃ n, twoEngines.nodes[0]? = some n ∧ n.inDev ≠ 2 ∧ n.outDev ≠ 2 ∧ 2 < twoEngines.devices.length) ∧
    ∃ r net', twoEngines.perform 1 0 .step = some (r, net') := ⟨⟨_, rfl, by decide, by decide, by decide⟩, _, _, rfl⟩

theorem witness_SharedFifoKeepsOrder :
    (∃ nj nk, twoEngines.nodes[0]? = some nj ∧ twoEngines.nodes[1]? = some nk ∧ nj.outDev = nk.inDev ∧
      nj.outDev < twoEngines.devices.length) ∧
    (twoEngines.view 0).live = true ∧ ∃ t, step (twoEngines.view 0) = .next t ∧ t.flags.vout = some 10 :=
  ⟨⟨_, _, rfl, rfl, rfl, by decide⟩, rfl, _, rfl, rfl⟩

end Sys2Proof.Tests
end

/-! Reads at and above the length (R36, R39). -/

namespace Sys2Proof.Machine

/-- R35: every cell at or above the length reads as 0. -/
theorem State.Inv.read_of_len_le {s : State} (hs : s.Inv) {a : Nat} (ha : s.len ≤ a) : s.mem.read a = 0 :=
  Memory.read_of_unlisted fun x hx => by
    have hbelow : x.1 < s.len := hs.zeroAbove x hx
    omega

/-- R36: memory that is already long enough is not extended. -/
theorem State.growTo_of_le {s : State} {n : Nat} (h : n ≤ s.len) : s.growTo n = s := by
  rw [State.growTo, Nat.max_eq_left h]

theorem State.memRead_eq (s : State) (a : Nat) : s.memRead a = (s.mem.read a, s.growTo (a + 1)) := rfl

/-- Settles O42: the unlisted cell reads 0, and the first read leaves memory long enough for the second. -/
theorem readBeyondLength : Obligations.ReadBeyondLength := by
  unfold Obligations.ReadBeyondLength
  intro s a hs ha
  have hzero : s.mem.read a = 0 := hs.read_of_len_le ha
  have hlen : (s.growTo (a + 1)).len = a + 1 := Nat.max_eq_right (by omega)
  refine ⟨s.growTo (a + 1), ?first, ?again, hlen, fun b => ?cells⟩
  case first => rw [State.memRead_eq, hzero]
  case again => rw [State.memRead_eq, State.growTo_mem, hzero, State.growTo_of_le hlen.ge]
  case cells => rw [State.growTo_mem]

end Sys2Proof.Machine

/-! The decoder on words that differ in their high digits only (R57). -/

namespace Sys2Proof

/-- R52: the digits below position n do not see a multiple of `10^n`. -/
theorem digit_add_mul_pow {j n : Nat} (h : j < n) (v k : Nat) : digit j (v + k * 10 ^ n) = digit j v := by
  obtain ⟨m, rfl⟩ := Nat.exists_eq_add_of_lt h
  have hsplit : v + k * 10 ^ (j + m + 1) = v + 10 ^ j * (10 * (k * 10 ^ m)) := by ring
  rw [digit, digit, hsplit, Nat.add_mul_div_left _ _ (by positivity), Nat.add_mul_mod_self_left]

/-- R56: parameter i's mode stands in digit i + 1, below every digit that an instruction of `n ≥ i` parameters ignores. -/
theorem modeOf_add_high {i n : Nat} (h : i ≤ n) (raw k : Nat) : modeOf i (raw + k * 10 ^ (n + 2)) = modeOf i raw := by
  rw [modeOf, modeOf, digit_add_mul_pow (by omega)]

/-- R54: of a word that is not negative, the identifier step reads the two low digits only. -/
theorem identify_congr {v w : Nat} (h : v % 100 = w % 100) : identify (v : Word) = identify (w : Word) := by
  have nonneg : ∀ u : Nat, ¬ (u : Word) < 0 := fun u => not_lt.mpr (Int.natCast_nonneg u)
  rw [identify, identify, if_neg (nonneg v), if_neg (nonneg w), Int.toNat_natCast, Int.toNat_natCast, h]

theorem identify_add_high (raw k n : Nat) :
    identify ((raw + k * 10 ^ (n + 2) : Nat) : Word) = identify (raw : Word) := by
  refine identify_congr ?_
  have hundreds : raw + k * 10 ^ (n + 2) = raw + 100 * (k * 10 ^ n) := by ring
  rw [hundreds, Nat.add_mul_mod_self_left]

theorem assemble_add_high (op : Opcode) (raw k : Nat) (c1 c2 c3 : Word) :
    assemble op (raw + k * 10 ^ (op.paramCount + 2)) c1 c2 c3 = assemble op raw c1 c2 c3 := by
  have mode : ∀ i, i ≤ op.paramCount → modeOf i (raw + k * 10 ^ (op.paramCount + 2)) = modeOf i raw :=
    fun i hi => modeOf_add_high hi raw k
  cases op with
  | add | mul | lessThan | equals => simp only [assemble, mode 1 (by decide), mode 2 (by decide), mode 3 (by decide)]
  | jumpIfTrue | jumpIfFalse => simp only [assemble, mode 1 (by decide), mode 2 (by decide)]
  | input | output | adjustRelativeBase => simp only [assemble, mode 1 (by decide)]
  | halt => rfl

theorem decode_add_high {op : Opcode} {raw : Nat} (hop : Opcode.ofId (raw % 100) = some op) (k : Nat)
    (cells : List Word) :
    decode (((raw + k * 10 ^ (op.paramCount + 2) : Nat) : Word) :: cells) = decode ((raw : Word) :: cells) := by
  have hid : identify (raw : Word) = .ok op :=
    identify_ok.mpr ⟨Int.natCast_nonneg raw, by simpa using Opcode.id_of_ofId hop⟩
  simp only [decode, identify_add_high, hid, Int.toNat_natCast, assemble_add_high]

/-- Every word with the identifier 99 is halt and takes no cell (R57, R72). -/
theorem decode_halt {w : Word} (h : 0 ≤ w ∧ w.toNat % 100 = Opcode.halt.id) (cells : List Word) :
    decode (w :: cells) = .ok (.halt, cells) :=
  decode_ok.mpr ⟨.halt, identify_ok.mpr h, Nat.zero_le _, rfl, rfl⟩

/-- A word with the identifier 4 is output, in the mode of digit 2 whatever the digits above it are (R57). -/
theorem decode_output {w : Word} (h : 0 ≤ w ∧ w.toNat % 100 = Opcode.output.id) (c : Word) (cells : List Word) :
    decode (w :: c :: cells) = .ok (.output { mode := modeOf 1 w.toNat, word := c }, cells) :=
  decode_ok.mpr ⟨.output, identify_ok.mpr h, by simp [Opcode.paramCount], rfl, rfl⟩

/-- Settles O3: the identifier and the mode digits all stand below position `n + 2`. -/
theorem highDigitsIgnored : Obligations.HighDigitsIgnored := by
  unfold Obligations.HighDigitsIgnored
  refine ⟨fun op raw k cells hop => decode_add_high hop k cells, fun cells w hw => ?halts, fun c cells w hw => ?outputs⟩
  case halts =>
    have hid : ∀ w ∈ [(99 : Word), 199, 1099, 12399], 0 ≤ w ∧ w.toNat % 100 = Opcode.halt.id := by decide
    exact decode_halt (hid w hw) cells
  case outputs =>
    have hid : ∀ w ∈ [(104 : Word), 90104], 0 ≤ w ∧ w.toNat % 100 = Opcode.output.id := by decide
    have hmode : ∀ w ∈ [(104 : Word), 90104], modeOf 1 w.toNat = .immediate := by decide
    rw [decode_output (hid w hw), hmode w hw]

end Sys2Proof

/-! Faults of the fetch: the word at `pc` selects no instruction (R55, R122). -/

namespace Sys2Proof.Machine

/-- The `raw` field of the record, where `pc` can be fetched from (R28). -/
theorem State.rawWord_of_validAddr {s : State} (h : validAddr s.params s.pc = true) :
    s.rawWord = s.mem.read s.pc.toNat := if_pos h

/-- R130: an unknown opcode is raised before the parameter cells are looked at. -/
theorem State.fetch_unknownOpcode {s : State} {info : Word} (hpc : validAddr s.params s.pc = true)
    (hid : identify (s.mem.read s.pc.toNat) = .error info) :
    s.fetch = .error { code := .unknownOpcode, param := 0, info := info } := by
  have hfetch : checkAddr s.params 0 s.pc = .ok s.pc.toNat := checkAddr_ok.mpr ⟨hpc, rfl⟩
  exact bind_error.mpr (.inr ⟨_, hfetch, by simp only [hid]⟩)

/-- A live engine takes its fetch's fault (R77, R84). -/
theorem step_of_fetch_error {s : State} {e : Raised} (hlive : s.live = true) (he : s.fetch = .error e) :
    step s = .next (s.takeFault e) := by
  rcases step_cases hlive with ⟨i, hi, -⟩ | ⟨e', he', hstep⟩
  · rw [he] at hi
    cases hi
  · rw [he] at he'
    cases he'
    exact hstep

theorem step_unknownOpcode {s : State} {info : Word} (hlive : s.live = true) (hpc : validAddr s.params s.pc = true)
    (hid : identify (s.mem.read s.pc.toNat) = .error info) :
    step s = .next (s.faultedBy .unknownOpcode 0 info) :=
  step_of_fetch_error hlive (State.fetch_unknownOpcode hpc hid)

/-- Settles O9: either word fails the identifier step, which comes right after the fetch of the word. -/
theorem unknownOpcodeFaults : Obligations.UnknownOpcodeFaults := by
  unfold Obligations.UnknownOpcodeFaults
  intro s hlive hpc r
  have hraw : s.rawWord = r := State.rawWord_of_validAddr hpc
  refine ⟨fun hneg => ?negative, fun hnonneg hnotIn => ?notInTable⟩
  case negative =>
    have hid : identify r = .error r := identify_error.mpr (.inl ⟨hneg, rfl⟩)
    rw [step_unknownOpcode hlive hpc hid, State.faultedBy, hraw]
  case notInTable =>
    have hinfo : r % 100 = ((r.toNat % 100 : Nat) : Word) := by
      rw [Int.natCast_mod, Int.toNat_of_nonneg hnonneg]
      rfl
    have hid : identify r = .error (r % 100) := identify_error.mpr (.inr ⟨hnonneg, hnotIn, hinfo⟩)
    rw [step_unknownOpcode hlive hpc hid, State.faultedBy, hraw]

/-! The first operand that does not resolve decides the fault, whatever comes after it (R66, R130). -/

/-- The resolver that the role of a parameter selects raises e on it (R67). -/
def State.resolveRaises (s : State) (e : Raised) (i : Nat) (p : Operand) : Role → Prop
  | .val => s.resolveVal i p = .error e
  | .addr => s.resolveAddr i p = .error e

/-- Of the operands from parameter i on, with their roles, one raises e and those before it resolve. A destination is the
last parameter of its instruction (R68), so the ones before it resolve as values. -/
def State.operandsRaise (s : State) (e : Raised) : Nat → List Operand → List Role → Prop
  | i, p :: ps, r :: rs => s.resolveRaises e i p r ∨ (s.valReady p = true ∧ s.operandsRaise e (i + 1) ps rs)
  | _, _, _ => False

theorem State.operandsRaise_of_getElem? {s : State} {e : Raised} {ps : List Operand} {rs : List Role} {i k : Nat}
    {p : Operand} {r : Role} (hp : ps[k]? = some p) (hr : rs[k]? = some r)
    (hready : ∀ j q, j < k → ps[j]? = some q → s.valReady q = true) (he : s.resolveRaises e (i + k) p r) :
    s.operandsRaise e i ps rs := by
  induction k generalizing i ps rs with
  | zero =>
    obtain ⟨ps', rfl⟩ : ∃ ps', ps = p :: ps' := by cases ps <;> simp_all
    obtain ⟨rs', rfl⟩ : ∃ rs', rs = r :: rs' := by cases rs <;> simp_all
    exact .inl he
  | succ k ih =>
    match ps, rs with
    | q :: ps, _ :: rs =>
      have hrest : s.operandsRaise e (i + 1) ps rs :=
        ih hp hr (fun j q hj hq => hready (j + 1) q (by omega) hq) (by rwa [Nat.add_right_comm])
      exact .inr ⟨hready 0 q (by omega) rfl, hrest⟩

theorem storeBinary_operandsRaise {result : Config → Word → Word → Except Raised Word} {p1 p2 p3 : Operand} {s : State}
    {e : Raised} (h : s.operandsRaise e 1 [p1, p2, p3] [.val, .val, .addr]) (n : Nat) :
    storeBinary result p1 p2 p3 (s.startStep n) = .error e := by
  simp only [State.operandsRaise, State.resolveRaises, and_false, or_false] at h
  simp only [storeBinary_error, State.resolveVal_startStep_error, State.resolveAddr_startStep, State.valReady_startStep]
  exact h.imp id (.imp id (.imp id (.imp id .inl)))

theorem jumpWhen_operandsRaise {taken : Word → Bool} {p1 p2 : Operand} {s : State} {e : Raised}
    (h : s.operandsRaise e 1 [p1, p2] [.val, .val]) (n : Nat) : jumpWhen taken p1 p2 (s.startStep n) = .error e := by
  simpa [State.operandsRaise, State.resolveRaises, jumpWhen_error] using h

/-- A step takes the fault of the first operand that does not resolve. -/
theorem exec_operandsRaise {i : Instr} {s : State} {e : Raised} (h : s.operandsRaise e 1 i.operands i.opcode.roles) :
    exec i s = .next (s.takeFault e) := by
  have one : ∀ {p : Operand} {r : Role}, s.operandsRaise e 1 [p] [r] → s.resolveRaises e 1 p r := fun h => by
    simpa [State.operandsRaise] using h
  cases i with
  | add | mul | lessThan | equals => exact State.runStep_of_error (storeBinary_operandsRaise h _)
  | jumpIfTrue | jumpIfFalse => exact State.runStep_of_error (jumpWhen_operandsRaise h _)
  | input => exact State.runStep_of_error (inputBody_error.mpr (.inl (one h)))
  | output => exact State.runStep_of_error (outputBody_error.mpr (.inl (State.resolveVal_startStep_error.mpr (one h))))
  | adjustRelativeBase =>
    exact State.runStep_of_error (adjustBody_error.mpr (.inl (State.resolveVal_startStep_error.mpr (one h))))
  | halt => exact h.elim

theorem roles_length (i : Instr) : i.opcode.roles.length = i.operands.length := by cases i <;> rfl

/-- The same for the operand at position k: it raises e in its role, and the ones before it resolve. -/
theorem exec_operand_raises {i : Instr} {k : Nat} {p : Operand} {s : State} {e : Raised}
    (hp : i.operands[k]? = some p) (hready : ∀ j q, j < k → i.operands[j]? = some q → s.valReady q = true)
    (he : ∀ r, i.opcode.roles[k]? = some r → s.resolveRaises e (k + 1) p r) :
    exec i s = .next (s.takeFault e) := by
  have hk : k < i.opcode.roles.length := by
    rw [roles_length]
    exact (List.getElem?_eq_some_iff.mp hp).1
  have hr : i.opcode.roles[k]? = some i.opcode.roles[k] := List.getElem?_eq_getElem hk
  exact exec_operandsRaise (State.operandsRaise_of_getElem? hp hr hready (by rw [Nat.add_comm]; exact he _ hr))

/-- R64: an undefined digit is raised by either resolver. -/
theorem State.resolveRaises_undefinedMode {s : State} {p : Operand} {d : Nat} (h : p.mode = .undefined d) (i : Nat)
    (r : Role) : s.resolveRaises { code := .undefinedMode, param := i, info := (d : Word) } i p r := by
  cases r with
  | val => exact State.resolveVal_error.mpr (.inl ⟨d, h, rfl⟩)
  | addr => exact State.resolveAddr_error.mpr (.inl ⟨d, h, rfl⟩)

/-- R65: a refused address is raised by either resolver. -/
theorem State.resolveRaises_address {s : State} {p : Operand} {a : Word} {i : Nat} {e : Raised}
    (h : p.mode = .position ∧ a = p.word ∨ p.mode = .relative ∧ a = s.rb + p.word ∧ representable s.params a = true)
    (he : checkAddr s.params i a = .error e) (r : Role) : s.resolveRaises e i p r := by
  have haddr : (p.mode = .position ∨ p.mode = .relative ∧ representable s.params (s.rb + p.word) = true) ∧
      checkAddr s.params i (s.effAddr p) = .error e := by
    rcases h with ⟨hm, rfl⟩ | ⟨hm, rfl, hr⟩
    · exact ⟨.inl hm, by rwa [State.effAddr, hm]⟩
    · exact ⟨.inr ⟨hm, hr⟩, by rwa [State.effAddr, hm]⟩
  cases r with
  | val => exact State.resolveVal_error.mpr (.inr (.inr haddr))
  | addr => exact State.resolveAddr_error.mpr (.inr (.inr (.inr haddr)))

/-- Settles O34: the resolvers of both roles raise `UndefinedMode`, so the role of the parameter does not matter. -/
theorem undefinedModeFaults : Obligations.UndefinedModeFaults := by
  unfold Obligations.UndefinedModeFaults
  intro i k d p s hp hmode hready
  exact exec_operand_raises hp hready fun r _ => State.resolveRaises_undefinedMode hmode (k + 1) r

/-- Settles O35: the resolvers of both roles make the same check of the address. -/
theorem invalidAddressFaults : Obligations.InvalidAddressFaults := by
  unfold Obligations.InvalidAddressFaults
  intro i k p a s hp hready haddr
  refine ⟨fun hneg => ?below, fun m hnonneg hm hge => ?beyond⟩
  case below =>
    have hcheck : checkAddr s.params (k + 1) a = .error { code := .negativeAddress, param := k + 1, info := a } :=
      checkAddr_error.mpr (.inl ⟨hneg, rfl⟩)
    exact exec_operand_raises hp hready fun r _ => State.resolveRaises_address haddr hcheck r
  case beyond =>
    have hcheck : checkAddr s.params (k + 1) a = .error { code := .capacityExceeded, param := k + 1, info := a } :=
      checkAddr_error.mpr (.inr ⟨hnonneg, ⟨m, hm, hge⟩, rfl⟩)
    exact exec_operand_raises hp hready fun r _ => State.resolveRaises_address haddr hcheck r

end Sys2Proof.Machine

/-! The default advance (R79, R81). -/

namespace Sys2Proof.Machine

theorem State.after_flags_jump (s : State) (i : Instr) : (s.after i).flags.jump = s.takesJump i := rfl

theorem State.after_flags_halt (s : State) (i : Instr) : (s.after i).flags.halt = decide (i = .halt) := rfl

/-- R79: a step that goes through and sets neither `jump` nor `halt` moves `pc` past its parameter cells. -/
theorem State.after_pc_of_no_flags {s : State} {i : Instr} (hjump : (s.after i).flags.jump = false)
    (hhalt : (s.after i).flags.halt = false) : (s.after i).pc = s.pc + 1 + i.opcode.paramCount := by
  rw [State.after_flags_jump] at hjump
  rw [State.after_flags_halt, decide_eq_false_iff_not] at hhalt
  simp only [State.after, if_neg hhalt, hjump, Bool.false_eq_true, if_false]

/-- Settles O13: a step that goes through ends in `State.after`; the advance of each instruction is then 1 and its
parameter count, and halt is no such instruction, because it sets `halt`. -/
theorem defaultAdvance : Obligations.DefaultAdvance := by
  unfold Obligations.DefaultAdvance
  intro i s t hexec hfault hjump hhalt
  obtain ⟨-, rfl⟩ := exec_goes hexec hfault
  have hpc : (s.after i).pc = s.pc + 1 + i.opcode.paramCount := State.after_pc_of_no_flags hjump hhalt
  refine ⟨hpc, ?_⟩
  rw [hpc, Int.add_assoc]
  cases i with
  | add | mul | lessThan | equals | input | output | adjustRelativeBase | jumpIfTrue | jumpIfFalse => rfl
  | halt => cases hhalt

/-! Commands on an engine that is halted or faulted, and commands that do not look at the status (R93, R94). -/

theorem State.live_eq_false_iff {s : State} : s.live = false ↔ s.status.isFinal = true := by simp [State.live]

theorem State.stepCommand_final {s : State} (h : s.live = false) : s.stepCommand = (.ended s.status s.fault, s) :=
  if_pos (State.live_eq_false_iff.mp h)

/-- RUN and RESUME do not reach their loops, and take no words, on a halted or faulted engine. -/
theorem drive_final {σ : Type} {view : σ → State} {x : σ} (h : (view x).live = false) (upd : (State → State) → σ → σ)
    (loop : σ → Option (Response × σ)) (words : List Word) :
    drive view upd loop words x = some (.ended (view x).status (view x).fault, x) :=
  if_pos (State.live_eq_false_iff.mp h)

section
variable (s : State) (st : Status)

theorem State.pushInputs_setStatus (vs : List Word) :
    (s.setStatus st).pushInputs vs = (s.pushInputs vs).map (·.setStatus st) := by
  rw [State.pushInputs, State.pushInputs, apply_ite (Option.map _)]
  rfl

theorem State.inPush_setStatus (v : Word) :
    (s.setStatus st).inPush v = Prod.map id (·.setStatus st) (s.inPush v) := by
  simp only [State.inPush, State.pushInputs_setStatus]
  cases s.pushInputs [v] <;> rfl

theorem State.outPop_setStatus : (s.setStatus st).outPop = Prod.map id (·.setStatus st) s.outPop := by
  simp only [State.outPop, State.setStatus_outq]
  cases s.outq <;> rfl

theorem State.memGet_setStatus (a : Word) :
    (s.setStatus st).memGet a = Prod.map id (·.setStatus st) (s.memGet a) := by
  rw [State.memGet, State.memGet, apply_ite (Prod.map id _)]
  rfl

theorem State.memSet_setStatus (a v : Word) :
    (s.setStatus st).memSet a v = Prod.map id (·.setStatus st) (s.memSet a v) := by
  rw [State.memSet, State.memSet, apply_ite (Prod.map id _)]
  rfl

end

/-- Settles O51: STEP, RUN and RESUME look at the status first; IN_PUSH, OUT_POP, MEM_GET and MEM_SET commute with any
change of it. -/
theorem finalEnginesStay : Obligations.FinalEnginesStay := by
  unfold Obligations.FinalEnginesStay
  intro fuel s
  refine ⟨fun hfinal cmd hcmd => ?final, fun st cmd hcmd => ?anyStatus, rfl⟩
  case final =>
    rcases hcmd with rfl | ⟨seed, rfl⟩ | ⟨inputs, rfl⟩
    · exact congrArg some (State.stepCommand_final hfinal)
    · exact drive_final (view := id) hfinal (fun f => f) _ seed
    · exact drive_final (view := id) hfinal (fun f => f) _ inputs
  case anyStatus =>
    rcases hcmd with ⟨v, rfl⟩ | rfl | ⟨a, rfl⟩ | ⟨a, v, rfl⟩
    · exact congrArg some (s.inPush_setStatus st v)
    · exact congrArg some (s.outPop_setStatus st)
    · exact congrArg some (s.memGet_setStatus st a)
    · exact congrArg some (s.memSet_setStatus st a v)

end Sys2Proof.Machine

/-! When an output overflows the FIFO (R107), and the faults of an operand and of the advance that are no overflow. -/

namespace Sys2Proof.Machine

theorem fits_self_succ (n : Nat) : fits (some n) (n + 1) = false := by simp [fits]

theorem State.settle_status_ne_faulted (s : State) : s.settle.status ≠ .faulted := by
  rw [State.settle_status]
  cases s.flags.halt <;> decide

theorem checkAddr_ne_outputOverflow {c : Config} {i : Nat} {a : Word} {e : Raised} (h : checkAddr c i a = .error e) :
    e.code ≠ .outputOverflow := by
  rcases checkAddr_error.mp h with ⟨-, rfl⟩ | ⟨-, -, rfl⟩ <;> exact FaultCode.noConfusion

theorem State.resolveVal_ne_outputOverflow {s : State} {i : Nat} {p : Operand} {e : Raised}
    (h : s.resolveVal i p = .error e) : e.code ≠ .outputOverflow := by
  rcases State.resolveVal_error.mp h with ⟨_, -, rfl⟩ | ⟨-, -, rfl⟩ | ⟨-, haddr⟩
  · exact FaultCode.noConfusion
  · exact FaultCode.noConfusion
  · exact checkAddr_ne_outputOverflow haddr

theorem State.advance_ne_outputOverflow {s : State} {n : Nat} {e : Raised} (h : s.advance n = .error e) :
    e.code ≠ .outputOverflow := by
  obtain ⟨-, -, rfl⟩ := State.advance_error.mp h
  exact FaultCode.noConfusion

/-- R107: an output whose operand resolves and whose FIFO has no room overflows it, with the value not written. -/
theorem execOutput_overflow {p1 : Operand} {s : State} (hready : s.valReady p1 = true)
    (hfull : fits s.params.outCapacity (s.outq.length + 1) = false) :
    exec (.output p1) s = .next (s.faultedBy .outputOverflow 0 (s.valueOf p1)) :=
  State.runStep_of_error (outputBody_error.mpr (.inr ⟨hready, hfull, rfl⟩))

/-- The converse: an output that faults with `OutputOverflow` had no room in its FIFO. -/
theorem execOutput_overflow_full {p1 : Operand} {s t : State} (h : exec (.output p1) s = .next t)
    (hfault : t.status = .faulted) (hcode : t.fault.code = .outputOverflow) :
    fits s.params.outCapacity (s.outq.length + 1) = false := by
  rcases State.runStep_cases h with ⟨e, rfl, hbody | ⟨u, -, hadvance⟩⟩ | ⟨u, v, -, -, rfl⟩
  case inl.inl =>
    rcases outputBody_error.mp hbody with hoperand | ⟨-, hfull, -⟩
    · exact absurd hcode (State.resolveVal_ne_outputOverflow hoperand)
    · exact hfull
  case inl.inr => exact absurd hcode (State.advance_ne_outputOverflow hadvance)
  case inr => exact absurd hfault v.settle_status_ne_faulted

/-- Settles O39: a FIFO that holds its capacity has no room for one word more, which is when an output overflows it; an
unbounded one always has room. -/
theorem fullOutputFaults : Obligations.FullOutputFaults := by
  unfold Obligations.FullOutputFaults
  refine ⟨fun p1 c s hready hcap hlen => ?full, fun p1 s t hcap hexec hfault hcode => ?unbounded⟩
  case full =>
    have hfull : fits s.params.outCapacity (s.outq.length + 1) = false := by
      rw [hcap, hlen]
      exact fits_self_succ c
    exact execOutput_overflow hready hfull
  case unbounded =>
    have hfull : fits s.params.outCapacity (s.outq.length + 1) = false := execOutput_overflow_full hexec hfault hcode
    rw [hcap] at hfull
    exact Bool.noConfusion hfull

end Sys2Proof.Machine

/-! What the compares leave in their destination and in the flags (R114). -/

namespace Sys2Proof.Machine

/-- R41: after a step that goes through, the cell stored to reads back the word stored. -/
theorem State.read_after_of_stores {s : State} {i : Instr} {d : Nat} {v : Word} (hs : s.mem.wf)
    (h : s.stores i = some (d, v)) : (s.after i).mem.read d = v := by
  have hmem : (s.after i).mem = s.mem.write d v := by simp only [State.after, h]
  rw [hmem, Memory.read_write_same hs]

/-- R112, R113: whatever the operands are, a compare stores one of its two truth values at its destination. -/
theorem State.stores_compare {s : State} {i : Instr} {p1 p2 p3 : Operand}
    (hi : i = .lessThan p1 p2 p3 ∨ i = .equals p1 p2 p3) :
    ∃ v : Word, s.stores i = some (s.cellOf p3, v) ∧ (v = 0 ∨ v = 1) := by
  rcases hi with rfl | rfl
  · exact ⟨_, rfl, (ite_eq_or_eq _ 1 0).symm⟩
  · exact ⟨_, rfl, (ite_eq_or_eq _ 1 0).symm⟩

/-- R22 to R24: a compare is no jump, no halt and no output. -/
theorem State.after_flags_compare {s : State} {i : Instr} {p1 p2 p3 : Operand}
    (hi : i = .lessThan p1 p2 p3 ∨ i = .equals p1 p2 p3) : (s.after i).flags = Flags.clear := by
  rcases hi with rfl | rfl <;> rfl

/-- Settles O30: a compare that goes through ends in `State.after`, whose destination cell reads the stored truth
value. -/
theorem comparesWriteZeroOrOne : Obligations.ComparesWriteZeroOrOne := by
  unfold Obligations.ComparesWriteZeroOrOne
  intro i p1 p2 p3 s t hs hi hexec hfault
  obtain ⟨-, rfl⟩ := exec_goes hexec hfault
  obtain ⟨v, hstores, htruth⟩ := State.stores_compare (s := s) hi
  refine ⟨?_, State.after_flags_compare hi⟩
  rwa [State.read_after_of_stores hs hstores]

end Sys2Proof.Machine

/-! An immediate destination (R62, R123). -/

namespace Sys2Proof.Machine

/-- R62: the resolver of a destination refuses mode 1, with the parameter's index and its raw word. -/
theorem State.resolveAddr_immediate {s : State} {p : Operand} (h : p.mode = .immediate) (i : Nat) :
    s.resolveAddr i p = .error { code := .invalidAddressingMode, param := i, info := p.word } :=
  State.resolveAddr_error.mpr (.inr (.inl ⟨h, rfl⟩))

/-- R68: the four instructions that store a result of two values have their destination third. -/
theorem Instr.store_shape {i : Instr} {p1 p2 p3 : Operand}
    (hi : i = .add p1 p2 p3 ∨ i = .mul p1 p2 p3 ∨ i = .lessThan p1 p2 p3 ∨ i = .equals p1 p2 p3) :
    i.operands = [p1, p2, p3] ∧ i.opcode.roles = [.val, .val, .addr] := by
  rcases hi with rfl | rfl | rfl | rfl <;> exact ⟨rfl, rfl⟩

/-- Settles O33: the destination is the first operand that does not resolve, so it decides the fault of the step;
whether a word is queued for input does not matter. -/
theorem immediateDestinationFaults : Obligations.ImmediateDestinationFaults := by
  unfold Obligations.ImmediateDestinationFaults
  intro p1 p2 p3 s
  refine ⟨fun hmode => ?input, fun i hi h1 h2 hmode => ?store⟩
  case input => exact exec_operandsRaise (i := .input p1) (.inl (State.resolveAddr_immediate hmode 1))
  case store =>
    obtain ⟨hoperands, hroles⟩ := Instr.store_shape hi
    have hraises : s.operandsRaise { code := .invalidAddressingMode, param := 3, info := p3.word } 1
        i.operands i.opcode.roles := by
      rw [hoperands, hroles]
      exact .inr ⟨h1, .inr ⟨h2, .inl (State.resolveAddr_immediate hmode 3)⟩⟩
    exact exec_operandsRaise hraises

end Sys2Proof.Machine

/-! What LOAD leaves, and the first step of the empty program (R141 to R145). -/

namespace Sys2Proof.Machine

/-- The engine that LOAD creates of a program it accepts (R142). -/
def State.loaded (c : Config) (program : List Word) (inDev outDev : Option (List Word)) : State :=
  { params := c, mem := Memory.ofWords 0 program, len := program.length, pc := 0, rb := 0, status := .ready,
    fault := FaultRecord.none, inq := inDev.getD [], outq := outDev.getD [], flags := Flags.clear }

section
variable {c : Config} {program : List Word} {inDev outDev : Option (List Word)}

theorem load_accepted (hwords : ∀ w ∈ program, representable c w = true)
    (hfits : fits c.memCells program.length = true) :
    load c program inDev outDev = some (State.loaded c program inDev outDev) :=
  if_pos (Bool.and_eq_true_iff.mpr ⟨List.all_eq_true.mpr hwords, hfits⟩)

/-- R144: one word that is not representable, or one cell too few, rejects the whole program. -/
theorem load_rejected
    (h : (∃ w ∈ program, representable c w = false) ∨ fits c.memCells program.length = false) :
    load c program inDev outDev = none := by
  refine if_neg fun haccepted => ?_
  obtain ⟨hwords, hfits⟩ := Bool.and_eq_true_iff.mp haccepted
  rcases h with ⟨w, hw, hrange⟩ | hlong
  · exact Bool.false_ne_true (hrange.symm.trans (List.all_eq_true.mp hwords w hw))
  · exact Bool.false_ne_true (hlong.symm.trans hfits)

/-- R141: cell i of the loaded engine holds word i of the program, and 0 beyond its end. -/
theorem State.loaded_read (i : Nat) : (State.loaded c program inDev outDev).mem.read i = program.getD i 0 := by
  have hread := Memory.read_ofWords 0 program i
  rwa [Nat.zero_add] at hread

end

/-- Settles O49: the acceptance test of LOAD is the conjunction of the two conditions, and the accepted engine is
`State.loaded`. -/
theorem loadResets : Obligations.LoadResets := by
  unfold Obligations.LoadResets
  intro c program inDev outDev
  exact ⟨fun hwords hfits => ⟨State.loaded c program inDev outDev, load_accepted hwords hfits, rfl, State.loaded_read,
    rfl, rfl, rfl, rfl, rfl, rfl, rfl, rfl⟩, load_rejected⟩

theorem fits_zero (capacity : Option Nat) : fits capacity 0 = true := by
  cases capacity with
  | none => rfl
  | some n => exact decide_eq_true n.zero_le

/-- R34: cell 0 is an address unless memory has no cells at all. -/
theorem validAddr_zero {c : Config} (h : c.memCells ≠ some 0) : validAddr c 0 = true := by
  unfold validAddr
  split
  next => rfl
  next m hm =>
    have hpos : m ≠ 0 := fun hzero => h (hzero ▸ hm)
    exact decide_eq_true ⟨le_rfl, Int.natCast_pos.mpr (Nat.pos_of_ne_zero hpos)⟩

/-- R54: the word 0, which every unwritten cell holds, selects no instruction. -/
theorem identify_zero : identify 0 = .error 0 := by decide

/-- Settles O50: the first step fetches the 0 of cell 0, which is an unknown opcode; taking the fault discards the
step's extension of `len`. -/
theorem emptyProgramFaults : Obligations.EmptyProgramFaults := by
  unfold Obligations.EmptyProgramFaults
  intro c inDev outDev hcells
  have hpc : validAddr c 0 = true := validAddr_zero hcells
  have hraw : (State.loaded c [] inDev outDev).rawWord = 0 := State.rawWord_of_validAddr hpc
  have hstep : step (State.loaded c [] inDev outDev) =
      .next ((State.loaded c [] inDev outDev).faultedBy .unknownOpcode 0 0) :=
    step_unknownOpcode rfl hpc identify_zero
  refine ⟨State.loaded c [] inDev outDev, load_accepted (fun _ hw => nomatch hw) (fits_zero _), rfl, ?_⟩
  rw [hstep, State.faultedBy, hraw]
  rfl

end Sys2Proof.Machine

/-! The encoder against the decoder: the mode digits of a canonical word (R51, R56, R69). -/

namespace Sys2Proof

theorem Opcode.id_lt (op : Opcode) : op.id < 100 := by cases op <;> decide

theorem Opcode.paramCount_le (op : Opcode) : op.paramCount ≤ 3 := by cases op <;> decide

theorem Opcode.roles_length_le (op : Opcode) : op.roles.length ≤ 3 := by cases op <;> decide

/-- R72: only halt has no parameter. -/
theorem Instr.paramCount_pos {i : Instr} (h : i ≠ .halt) : 0 < i.opcode.paramCount := by
  cases i with
  | halt => exact absurd rfl h
  | add | mul | input | output | jumpIfTrue | jumpIfFalse | lessThan | equals | adjustRelativeBase =>
    exact Nat.succ_pos _

theorem Instr.operands_length (i : Instr) : i.operands.length = i.opcode.paramCount := by cases i <;> rfl

theorem Mode.isDigit_of_legalVal {m : Mode} (h : m.legalVal = true) : m.isDigit = true := by
  cases m with
  | position | immediate | relative => rfl
  | undefined d => exact Bool.noConfusion h

theorem Mode.isDigit_of_legalAddr {m : Mode} (h : m.legalAddr = true) : m.isDigit = true := by
  cases m with
  | position | relative => rfl
  | immediate | undefined => exact Bool.noConfusion h

/-- R68, R69: the modes that are legal for a role are modes a digit stands for. -/
theorem Instr.encodable_of_wellFormed {i : Instr} (h : i.wellFormed = true) : i.encodable = true := by
  have hval : ∀ {m : Mode}, m.legalVal = true → m.isDigit = true := Mode.isDigit_of_legalVal
  have haddr : ∀ {m : Mode}, m.legalAddr = true → m.isDigit = true := Mode.isDigit_of_legalAddr
  cases i with
  | add | mul | lessThan | equals =>
    simp only [wellFormed, Bool.and_eq_true] at h
    simp [encodable, operands, hval h.1.1, hval h.1.2, haddr h.2]
  | jumpIfTrue | jumpIfFalse =>
    simp only [wellFormed, Bool.and_eq_true] at h
    simp [encodable, operands, hval h.1, hval h.2]
  | output | adjustRelativeBase => simpa [encodable, operands] using hval h
  | input => simpa [encodable, operands] using haddr h
  | halt => rfl

/-- R69: the weighted mode digits are one number in base 10, shifted past the digits before parameter i's. -/
theorem modeDigits_eq_ofDigits (i : Nat) (ps : List Operand) :
    modeDigits i ps = 10 ^ (i + 1) * Nat.ofDigits 10 (ps.map fun p => p.mode.toDigit) := by
  induction ps generalizing i with
  | nil => rfl
  | cons p ps ih =>
    rw [modeDigits, ih, List.map_cons, Nat.ofDigits_cons]
    ring

/-- R54: the two low digits of the canonical word are the identifier. -/
theorem Instr.rawWord_mod (i : Instr) : i.rawWord % 100 = i.opcode.id := by
  have hid : i.opcode.id < 100 := i.opcode.id_lt
  rw [rawWord, modeDigits_eq_ofDigits]
  omega

theorem Instr.rawWord_div (i : Instr) :
    i.rawWord / 100 = Nat.ofDigits 10 (i.operands.map fun p => p.mode.toDigit) := by
  have hid : i.opcode.id < 100 := i.opcode.id_lt
  rw [rawWord, modeDigits_eq_ofDigits]
  omega

/-- A number written with decimal digits has them as its digits. -/
theorem digit_ofDigits {ds : List Nat} (h : ∀ d ∈ ds, d < 10) (k : Nat) :
    digit k (Nat.ofDigits 10 ds) = ds.getD k 0 := by
  rw [digit, Nat.ofDigits_div_pow_eq_ofDigits_drop k (by decide) ds h]
  have hhead : (ds.drop k).head?.getD 0 = ds.getD k 0 := by rw [List.head?_drop, List.getD_eq_getElem?_getD]
  rw [← hhead]
  cases hds : ds.drop k with
  | nil => rfl
  | cons d ds' =>
    have hd : d < 10 := h d (List.mem_of_mem_drop (i := k) (by simp [hds]))
    rw [Nat.ofDigits_cons, Nat.add_mul_mod_self_left, Nat.mod_eq_of_lt hd]
    rfl

theorem Instr.isDigit_of_encodable {i : Instr} (h : i.encodable = true) {p : Operand} (hp : p ∈ i.operands) :
    p.mode.isDigit = true := List.all_eq_true.mp h p hp

/-- R56: the canonical word gives parameter k + 1 its own mode. -/
theorem Instr.modeOf_rawWord {i : Instr} (h : i.encodable = true) {k : Nat} {p : Operand}
    (hp : i.operands[k]? = some p) :
    modeOf (k + 1) i.rawWord = p.mode := by
  have hdigits : ∀ d ∈ i.operands.map (fun p => p.mode.toDigit), d < 10 := by
    simp only [List.mem_map]
    rintro d ⟨q, hq, rfl⟩
    exact Mode.toDigit_lt (isDigit_of_encodable h hq)
  have hdigit : digit (k + 2) i.rawWord = p.mode.toDigit := by
    have hshift : digit (k + 2) i.rawWord = digit k (i.rawWord / 100) := by
      rw [digit, digit, Nat.div_div_eq_div_mul, Nat.pow_add, Nat.mul_comm]
    rw [hshift, rawWord_div, digit_ofDigits hdigits]
    simp [hp]
  rw [modeOf, hdigit, Mode.ofDigit_toDigit (isDigit_of_encodable h (List.mem_of_getElem? hp))]

/-- R51: the instruction put together from its canonical word and its own cells is the instruction. -/
theorem assemble_rawWord {i : Instr} (h : i.encodable = true) (rest : List Word) :
    let cells := i.operands.map (fun p => p.word) ++ rest
    assemble i.opcode i.rawWord (cells.getD 0 0) (cells.getD 1 0) (cells.getD 2 0) = i := by
  cases i with
  | add p1 p2 p3 | mul p1 p2 p3 | lessThan p1 p2 p3 | equals p1 p2 p3 =>
    simp [assemble, Instr.opcode, Instr.operands, Instr.modeOf_rawWord h (k := 0) rfl,
      Instr.modeOf_rawWord h (k := 1) rfl, Instr.modeOf_rawWord h (k := 2) rfl]
  | jumpIfTrue p1 p2 | jumpIfFalse p1 p2 =>
    simp [assemble, Instr.opcode, Instr.operands, Instr.modeOf_rawWord h (k := 0) rfl,
      Instr.modeOf_rawWord h (k := 1) rfl]
  | input p1 | output p1 | adjustRelativeBase p1 =>
    simp [assemble, Instr.opcode, Instr.operands, Instr.modeOf_rawWord h (k := 0) rfl]
  | halt => rfl

theorem decode_encode {i : Instr} (h : i.encodable = true) (rest : List Word) :
    decode (encode i ++ rest) = .ok (i, rest) := by
  rw [encode, List.cons_append]
  refine decode_ok.mpr ⟨i.opcode, identify_ok.mpr ⟨Int.natCast_nonneg _, i.rawWord_mod⟩, ?length,
    (assemble_rawWord h rest).symm, ?rest⟩
  case length => simp [Instr.operands_length]
  case rest => rw [← i.operands_length, List.drop_left' (by simp)]

/-- Settles O1: the identifier and the modes are the digits of the canonical word, one by one. -/
theorem decodeEncodeRoundTrip : Obligations.DecodeEncodeRoundTrip := by
  unfold Obligations.DecodeEncodeRoundTrip
  exact ⟨fun _ h => Instr.encodable_of_wellFormed h, fun _ rest h => decode_encode h rest⟩

/-! What the decoder reads, encoded again, and the words it reads nothing from (R54, R57, R69). -/

/-- R57: the low digits of a word are its identifier and the mode digits of an identifier of n parameters. -/
theorem rawWord_assemble {op : Opcode} {raw : Nat} (hid : raw % 100 = op.id) (c1 c2 c3 : Word) :
    (assemble op raw c1 c2 c3).rawWord = raw % 10 ^ (op.paramCount + 2) := by
  rw [Instr.rawWord, assemble_opcode, ← hid]
  cases op with
  | add | mul | lessThan | equals | jumpIfTrue | jumpIfFalse | input | output | adjustRelativeBase | halt =>
    simp only [assemble, Instr.operands, modeDigits, modeOf, Mode.toDigit_ofDigit, digit, Opcode.paramCount,
      Nat.reduceAdd, Nat.reducePow]
    omega

theorem encodable_assemble (op : Opcode) (raw : Nat) (c1 c2 c3 : Word) :
    (assemble op raw c1 c2 c3).encodable = true := by
  have hmode : ∀ i, (modeOf i raw).isDigit = true := fun i => Mode.isDigit_ofDigit (digit_lt _ _)
  cases op <;> simp [assemble, Instr.encodable, Instr.operands, hmode]

/-- R53: the parameter words of what the decoder reads are the cells after the opcode word. -/
theorem words_assemble {op : Opcode} {cells : List Word} (h : op.paramCount ≤ cells.length) (raw : Nat) :
    ((assemble op raw (cells.getD 0 0) (cells.getD 1 0) (cells.getD 2 0)).operands.map fun p => p.word) =
      cells.take op.paramCount := by
  have three : ∀ {cells : List Word}, 3 ≤ cells.length →
      [cells.getD 0 0, cells.getD 1 0, cells.getD 2 0] = cells.take 3
    | _ :: _ :: _ :: _, _ => rfl
  have two : ∀ {cells : List Word}, 2 ≤ cells.length → [cells.getD 0 0, cells.getD 1 0] = cells.take 2
    | _ :: _ :: _, _ => rfl
  have one : ∀ {cells : List Word}, 1 ≤ cells.length → [cells.getD 0 0] = cells.take 1
    | _ :: _, _ => rfl
  cases op with
  | add | mul | lessThan | equals => exact three h
  | jumpIfTrue | jumpIfFalse => exact two h
  | input | output | adjustRelativeBase => exact one h
  | halt => rfl

/-- Settles O2: the identifier and the mode digits of the parameters are all the digits that `assemble` reads. -/
theorem encodeOfDecodedWord : Obligations.EncodeOfDecodedWord := by
  unfold Obligations.EncodeOfDecodedWord
  intro raw cells rest i h
  obtain ⟨op, hid, hlen, rfl, rfl⟩ := decode_ok.mp h
  obtain ⟨-, hmod⟩ := identify_ok.mp hid
  refine ⟨encodable_assemble .., ?_⟩
  rw [encode, rawWord_assemble hmod, words_assemble hlen, assemble_opcode, List.cons_append, List.take_append_drop]

/-- Cells missing at the end are no unknown opcode. -/
theorem decode_unknownOpcode {raw info : Word} {cells : List Word} :
    decode (raw :: cells) = .error (.unknownOpcode info) ↔ identify raw = .error info := by
  rw [decode]
  cases identify raw with
  | error info' => simp
  | ok op =>
    by_cases hlen : cells.length < op.paramCount <;> simp [hlen]

/-- Settles O4: the identifier step alone refuses a word. -/
theorem unknownOpcodesExactly : Obligations.UnknownOpcodesExactly := by
  unfold Obligations.UnknownOpcodesExactly
  intro raw cells
  simp only [decode_unknownOpcode, identify_error]
  constructor
  · rintro ⟨info, ⟨hneg, -⟩ | ⟨-, hnotIn, -⟩⟩
    · exact .inl hneg
    · exact .inr hnotIn
  · intro h
    by_cases hneg : raw < 0
    · exact ⟨raw, .inl ⟨hneg, rfl⟩⟩
    · exact ⟨_, .inr ⟨not_lt.mp hneg, h.resolve_left hneg, rfl⟩⟩

theorem Mode.legalVal_ofDigit {d : Nat} : (Mode.ofDigit d).legalVal = true ↔ d ∈ Role.val.legalDigits := by
  unfold Mode.ofDigit
  split <;> simp_all [Mode.legalVal, Role.legalDigits]

theorem Mode.legalAddr_ofDigit {d : Nat} : (Mode.ofDigit d).legalAddr = true ↔ d ∈ Role.addr.legalDigits := by
  unfold Mode.ofDigit
  split <;> simp_all [Mode.legalAddr, Role.legalDigits]

/-- A statement about every place of a list, said of its head and of every place of its tail. -/
theorem forall_getElem?_cons {α : Type} {a : α} {l : List α} {P : Nat → α → Prop} :
    (∀ k r, (a :: l)[k]? = some r → P k r) ↔ P 0 a ∧ ∀ k r, l[k]? = some r → P (k + 1) r := by
  refine ⟨fun h => ⟨h 0 a rfl, fun k r hr => h (k + 1) r hr⟩, fun ⟨h0, hrest⟩ k r hr => ?_⟩
  cases k with
  | zero =>
    cases hr
    exact h0
  | succ k => exact hrest k r hr

/-- R68: the assembled instruction is well formed exactly if each mode digit is legal for the role of its parameter. -/
theorem wellFormed_assemble {op : Opcode} {raw : Nat} {c1 c2 c3 : Word} :
    (assemble op raw c1 c2 c3).wellFormed = true ↔
      ∀ k r, op.roles[k]? = some r → raw / 10 ^ (k + 2) % 10 ∈ r.legalDigits := by
  cases op <;>
    simp only [assemble, Instr.wellFormed, Opcode.roles, forall_getElem?_cons, modeOf, digit, Bool.and_eq_true,
      Mode.legalVal_ofDigit, Mode.legalAddr_ofDigit, List.getElem?_nil, reduceCtorEq, false_implies, implies_true,
      and_true, and_assoc, Nat.reduceAdd]

/-- Settles O5: a word with three cells after it is never cut short, so the identifier and the legal digits decide. -/
theorem wordSelectsInstruction : Obligations.WordSelectsInstruction := by
  unfold Obligations.WordSelectsInstruction
  intro raw c1 c2 c3 op
  constructor
  · rintro ⟨i, rest, hdecode, rfl, hwf⟩
    obtain ⟨op, hid, -, rfl, -⟩ := decode_ok.mp hdecode
    rw [assemble_opcode]
    obtain ⟨hnonneg, hmod⟩ := identify_ok.mp hid
    exact ⟨hnonneg, hmod, wellFormed_assemble.mp hwf⟩
  · rintro ⟨hnonneg, hmod, hlegal⟩
    exact ⟨_, _, decode_ok.mpr ⟨op, identify_ok.mpr ⟨hnonneg, hmod⟩, op.paramCount_le, rfl, rfl⟩, assemble_opcode ..,
      wellFormed_assemble.mpr hlegal⟩

/-- Settles O6: the decoder computes. -/
theorem sampleWordsDecode : Obligations.SampleWordsDecode := by
  unfold Obligations.SampleWordsDecode
  intro pos imm rel a b c
  exact ⟨rfl, rfl, rfl, rfl, rfl, rfl, rfl, rfl, rfl, rfl⟩

end Sys2Proof

/-! Faults of the fetch, the first one met (R59, R130 steps 1 to 3), and a step whose fetch goes through. -/

namespace Sys2Proof.Machine

/-- The fetch of the j-th parameter cell raises e: its address is no word, or is no address (R59). -/
def paramCellRaises (c : Config) (pc : Word) (j : Nat) (e : Raised) : Prop :=
  representable c (pc + j) = false ∧ e = { code := .valueOutOfRange, param := j, info := pc + j } ∨
    representable c (pc + j) = true ∧ checkAddr c j (pc + j) = .error e

section
variable {c : Config} {pc : Word} {i k : Nat}

theorem checkParamCells_succ_ok :
    checkParamCells c pc i (k + 1) = .ok () ↔
      (representable c (pc + i) = true ∧ validAddr c (pc + i) = true) ∧ checkParamCells c pc (i + 1) k = .ok () := by
  simp only [checkParamCells, bind_ok, check_ok, checkAddr_ok]
  constructor
  · rintro ⟨_, ⟨hr, rfl⟩, _, ⟨hv, -⟩, h⟩
    exact ⟨⟨hr, hv⟩, h⟩
  · rintro ⟨⟨hr, hv⟩, h⟩
    exact ⟨_, ⟨hr, rfl⟩, _, ⟨hv, rfl⟩, h⟩

theorem checkParamCells_succ_error {e : Raised} :
    checkParamCells c pc i (k + 1) = .error e ↔
      paramCellRaises c pc i e ∨
        (representable c (pc + i) = true ∧ validAddr c (pc + i) = true) ∧
          checkParamCells c pc (i + 1) k = .error e := by
  simp only [checkParamCells, bind_error, check_error, check_ok, checkAddr_ok, paramCellRaises]
  constructor
  · rintro (h | ⟨_, ⟨hr, rfl⟩, h | ⟨_, ⟨hv, -⟩, h⟩⟩)
    · exact .inl (.inl h)
    · exact .inl (.inr ⟨hr, h⟩)
    · exact .inr ⟨⟨hr, hv⟩, h⟩
  · rintro ((h | ⟨hr, h⟩) | ⟨⟨hr, hv⟩, h⟩)
    · exact .inl h
    · exact .inr ⟨_, ⟨hr, rfl⟩, .inl h⟩
    · exact .inr ⟨_, ⟨hr, rfl⟩, .inr ⟨_, ⟨hv, rfl⟩, h⟩⟩

end

/-- The first cell that cannot be fetched decides the fault. -/
theorem checkParamCells_error {c : Config} {pc : Word} {i k : Nat} {e : Raised} :
    checkParamCells c pc i k = .error e ↔
      ∃ j, j < k ∧ checkParamCells c pc i j = .ok () ∧ paramCellRaises c pc (i + j) e := by
  induction k generalizing i with
  | zero => simp [checkParamCells]
  | succ k ih =>
    rw [checkParamCells_succ_error, ih]
    constructor
    · rintro (h | ⟨hi, j, hj, hok, h⟩)
      · exact ⟨0, k.succ_pos, rfl, h⟩
      · exact ⟨j + 1, Nat.succ_lt_succ hj, checkParamCells_succ_ok.mpr ⟨hi, hok⟩,
          by rwa [← Nat.add_assoc, Nat.add_right_comm]⟩
    · rintro ⟨j, hj, hok, h⟩
      cases j with
      | zero => exact .inl h
      | succ j =>
        obtain ⟨hi, hok⟩ := checkParamCells_succ_ok.mp hok
        exact .inr ⟨hi, j, Nat.lt_of_succ_lt_succ hj, hok, by rwa [Nat.add_assoc, Nat.add_comm 1]⟩

/-- R59: the parameter cells of the statements are the ones the fetch checks. -/
theorem State.paramCellsReady_iff {s : State} {n : Nat} :
    s.paramCellsReady n = true ↔ checkParamCells s.params s.pc 1 n = .ok () := by
  simp only [State.paramCellsReady, List.all_eq_true, List.mem_range, Bool.and_eq_true, checkParamCells_ok]
  constructor
  · intro h j h1 hj
    obtain ⟨k, rfl⟩ := Nat.exists_eq_add_of_le' h1
    exact h k (by omega)
  · intro h k hk
    exact h (k + 1) (by omega) (by omega)

/-- Every fault of a fetch, in the order of R130. -/
theorem State.fetch_error {s : State} {e : Raised} :
    s.fetch = .error e ↔
      checkAddr s.params 0 s.pc = .error e ∨
      (validAddr s.params s.pc = true ∧
        ((∃ info, identify (s.mem.read s.pc.toNat) = .error info ∧
            e = { code := .unknownOpcode, param := 0, info := info }) ∨
          ∃ op, identify (s.mem.read s.pc.toNat) = .ok op ∧
            checkParamCells s.params s.pc 1 op.paramCount = .error e)) := by
  unfold State.fetch
  simp only [bind_error, checkAddr_ok, and_assoc, exists_and_left, exists_eq_left]
  refine or_congr Iff.rfl (and_congr_right fun _ => ?_)
  cases hid : identify (s.mem.read s.pc.toNat) with
  | error info => simp [eq_comm (a := e)]
  | ok op => simp [bind_error]

theorem State.fetch_error_of_paramCell {s : State} {op : Opcode} {k : Nat} {e : Raised}
    (hpc : validAddr s.params s.pc = true) (hid : identify (s.mem.read s.pc.toNat) = .ok op) (hk : k < op.paramCount)
    (hready : s.paramCellsReady k = true) (he : paramCellRaises s.params s.pc (k + 1) e) : s.fetch = .error e := by
  rw [Nat.add_comm] at he
  exact State.fetch_error.mpr (.inr ⟨hpc, .inr ⟨op, hid,
    checkParamCells_error.mpr ⟨k, hk, State.paramCellsReady_iff.mp hready, he⟩⟩⟩)

/-- R28: the raw word of the record is 0 where the fetch of the opcode faults. -/
theorem State.rawWord_of_checkAddr_error {s : State} {i : Nat} {e : Raised}
    (h : checkAddr s.params i s.pc = .error e) : s.rawWord = 0 := by
  refine if_neg fun hv => ?_
  have hok : checkAddr s.params i s.pc = .ok s.pc.toNat := checkAddr_ok.mpr ⟨hv, rfl⟩
  rw [hok] at h
  cases h

/-- Where the fetch of the opcode faults, the step takes that fault with no raw word (R28, R130). -/
theorem step_of_opcode_fetch_error {s : State} {e : Raised} (hlive : s.live = true)
    (he : checkAddr s.params 0 s.pc = .error e) :
    step s = .next { s with
      status := .faulted, flags := Flags.clear
      fault := { code := e.code, fpc := s.pc, raw := 0, param := e.param, info := e.info } } := by
  rw [step_of_fetch_error hlive (State.fetch_error.mpr (.inl he)), State.takeFault, State.rawWord_of_checkAddr_error he]

/-- Settles O8: the checks of `checkAddr` and of the parameter cells, in the order they are made. -/
theorem fetchFaultsInOrder : Obligations.FetchFaultsInOrder := by
  unfold Obligations.FetchFaultsInOrder
  intro s hlive
  refine ⟨fun hneg => ?below, fun m hm hge => ?beyond, fun op k hpc hnonneg hmod hk hready => ?params⟩
  case below => exact step_of_opcode_fetch_error hlive (checkAddr_error.mpr (.inl ⟨hneg, rfl⟩))
  case beyond =>
    have hpos : 0 ≤ s.pc := le_trans (Int.natCast_nonneg m) hge
    exact step_of_opcode_fetch_error hlive (checkAddr_error.mpr (.inr ⟨hpos, ⟨m, hm, hge⟩, rfl⟩))
  case params =>
    have hid : identify (s.mem.read s.pc.toNat) = .ok op := identify_ok.mpr ⟨hnonneg, hmod⟩
    have hraw : s.rawWord = s.mem.read s.pc.toNat := State.rawWord_of_validAddr hpc
    have raises : ∀ e, paramCellRaises s.params s.pc (k + 1) e → step s = .next (s.takeFault e) := fun e he =>
      step_of_fetch_error hlive (State.fetch_error_of_paramCell hpc hid hk hready he)
    refine ⟨fun hrange => ?_, fun m hrange hm hge => ?_⟩
    · rw [raises _ (.inl ⟨hrange, rfl⟩), State.takeFault, hraw]
    · have hpos : 0 ≤ s.pc + (k + 1 : Nat) := le_trans (Int.natCast_nonneg m) hge
      rw [raises _ (.inr ⟨hrange, checkAddr_error.mpr (.inr ⟨hpos, ⟨m, hm, hge⟩, rfl⟩)⟩), State.takeFault, hraw]

/-- R59: what the decoder reads from the four cells at `pc` is what the fetch gives, if the parameter cells can be
fetched. -/
theorem State.fetch_of_decode {s : State} {i : Instr} {rest : List Word} (hpc : validAddr s.params s.pc = true)
    (hdecode : decode [s.mem.read s.pc.toNat, s.mem.read (s.pc + 1).toNat, s.mem.read (s.pc + 2).toNat,
      s.mem.read (s.pc + 3).toNat] = .ok (i, rest))
    (hready : s.paramCellsReady i.opcode.paramCount = true) : s.fetch = .ok i := by
  obtain ⟨op, hid, -, rfl, -⟩ := decode_ok.mp hdecode
  rw [assemble_opcode, State.paramCellsReady_iff] at hready
  exact State.fetch_ok.mpr ⟨hpc, op, hid, hready, rfl⟩

/-- A live engine runs the instruction that its fetch gives (R77). -/
theorem step_of_fetch_ok {s : State} {i : Instr} (hlive : s.live = true) (hi : s.fetch = .ok i) :
    step s = exec i s := by
  rcases step_cases hlive with ⟨j, hj, hstep⟩ | ⟨e, he, -⟩
  · rw [hi] at hj
    cases hj
    exact hstep
  · rw [hi] at he
    cases he

/-- Settles O7: the fetch gives the instruction that the decoder reads. -/
theorem stepRunsDecodedInstruction : Obligations.StepRunsDecodedInstruction := by
  unfold Obligations.StepRunsDecodedInstruction
  intro s i rest hlive hpc hdecode hready
  exact step_of_fetch_ok hlive (State.fetch_of_decode hpc hdecode hready)

end Sys2Proof.Machine

/-! Every fault that the execution of an instruction can raise, said once and exactly (R121, R130 steps 4 to 6). -/

namespace Sys2Proof.Machine

/-- The body that `exec` runs for an instruction. -/
def bodyOf : Instr → State → Except Raised State
  | .add p1 p2 p3 => storeBinary (fun c a b => check c 0 (a + b)) p1 p2 p3
  | .mul p1 p2 p3 => storeBinary (fun c a b => check c 0 (a * b)) p1 p2 p3
  | .input p1 => inputBody p1
  | .output p1 => outputBody p1
  | .jumpIfTrue p1 p2 => jumpWhen (fun a => a != 0) p1 p2
  | .jumpIfFalse p1 p2 => jumpWhen (fun a => a == 0) p1 p2
  | .lessThan p1 p2 p3 => storeBinary (fun _ a b => .ok (if a < b then 1 else 0)) p1 p2 p3
  | .equals p1 p2 p3 => storeBinary (fun _ a b => .ok (if a = b then 1 else 0)) p1 p2 p3
  | .adjustRelativeBase p1 => adjustBody p1
  | .halt => haltBody

theorem exec_eq_runStep (i : Instr) (s : State) : exec i s = s.runStep i.opcode (bodyOf i) := by cases i <;> rfl

/-- A value computed by the step is no word (R102, R116, R82). -/
def Raised.outOfRange (v : Word) : Raised := { code := .valueOutOfRange, param := 0, info := v }

/-- The execute phase raises e, once the operands of the instruction have resolved (R102, R104, R105, R116). -/
def State.executeRaises (s : State) (e : Raised) : Instr → Prop
  | .add p1 p2 p3 => s.valReady p1 = true ∧ s.valReady p2 = true ∧ s.addrReady p3 = true ∧
      representable s.params (s.valueOf p1 + s.valueOf p2) = false ∧ e = .outOfRange (s.valueOf p1 + s.valueOf p2)
  | .mul p1 p2 p3 => s.valReady p1 = true ∧ s.valReady p2 = true ∧ s.addrReady p3 = true ∧
      representable s.params (s.valueOf p1 * s.valueOf p2) = false ∧ e = .outOfRange (s.valueOf p1 * s.valueOf p2)
  | .input p1 => s.addrReady p1 = true ∧ s.inq = [] ∧ e = { code := .inputExhausted, param := 0, info := 0 }
  | .output p1 => s.valReady p1 = true ∧ fits s.params.outCapacity (s.outq.length + 1) = false ∧
      e = { code := .outputOverflow, param := 0, info := s.valueOf p1 }
  | .adjustRelativeBase p1 => s.valReady p1 = true ∧ representable s.params (s.rb + s.valueOf p1) = false ∧
      e = .outOfRange (s.rb + s.valueOf p1)
  | .jumpIfTrue _ _ | .jumpIfFalse _ _ | .lessThan _ _ _ | .equals _ _ _ | .halt => False

/-- The advance raises e, once the execute phase has completed (R82). -/
def State.advanceRaises (s : State) (e : Raised) (i : Instr) : Prop :=
  s.executes i = true ∧ i ≠ .halt ∧ s.takesJump i = false ∧
    representable s.params (s.pc + 1 + i.opcode.paramCount) = false ∧ e = .outOfRange (s.pc + 1 + i.opcode.paramCount)

/-- The execution of i from s raises e. -/
def State.stepRaises (s : State) (e : Raised) (i : Instr) : Prop :=
  s.operandsRaise e 1 i.operands i.opcode.roles ∨ s.executeRaises e i ∨ s.advanceRaises e i

/-- The body raises the fault of an operand or of the execute phase. -/
theorem bodyOf_error {i : Instr} {s : State} {n : Nat} {e : Raised} :
    bodyOf i (s.startStep n) = .error e ↔
      s.operandsRaise e 1 i.operands i.opcode.roles ∨ s.executeRaises e i := by
  cases i with
  | add | mul | lessThan | equals =>
    simp only [bodyOf, storeBinary_error, Instr.operands, Instr.opcode, Opcode.roles, State.operandsRaise,
      State.resolveRaises, State.executeRaises, check_error, State.resolveVal_startStep_error,
      State.resolveAddr_startStep, State.valReady_startStep, State.addrReady_startStep, State.valueOf_startStep,
      State.startStep_params, Raised.outOfRange, reduceCtorEq]
    tauto
  | jumpIfTrue | jumpIfFalse =>
    simp only [bodyOf, jumpWhen_error, Instr.operands, Instr.opcode, Opcode.roles, State.operandsRaise,
      State.resolveRaises, State.executeRaises, State.resolveVal_startStep_error, State.valReady_startStep]
    tauto
  | input =>
    simp only [bodyOf, inputBody_error, Instr.operands, Instr.opcode, Opcode.roles, State.operandsRaise,
      State.resolveRaises, State.executeRaises, State.resolveAddr_startStep, State.addrReady_startStep,
      State.startStep_inq]
    tauto
  | output =>
    simp only [bodyOf, outputBody_error, Instr.operands, Instr.opcode, Opcode.roles, State.operandsRaise,
      State.resolveRaises, State.executeRaises, State.resolveVal_startStep_error, State.valReady_startStep,
      State.valueOf_startStep, State.startStep_params, State.startStep_outq]
    tauto
  | adjustRelativeBase =>
    simp only [bodyOf, adjustBody_error, Instr.operands, Instr.opcode, Opcode.roles, State.operandsRaise,
      State.resolveRaises, State.executeRaises, State.resolveVal_startStep_error, State.valReady_startStep,
      State.valueOf_startStep, State.startStep_params, State.startStep_rb, Raised.outOfRange]
    tauto
  | halt => simp [bodyOf, haltBody, Instr.operands, Instr.opcode, Opcode.roles, State.operandsRaise,
      State.executeRaises]

theorem storeBinary_startStep_ok {f : Config → Word → Word → Except Raised Word} {p1 p2 p3 : Operand} {s u : State}
    {n : Nat} (h : storeBinary f p1 p2 p3 (s.startStep n) = .ok u) :
    (s.valReady p1 = true ∧ s.valReady p2 = true ∧ s.addrReady p3 = true ∧
      ∃ v, f s.params (s.valueOf p1) (s.valueOf p2) = .ok v) ∧
    u.params = s.params ∧ u.pc = s.pc ∧ u.flags.suppressAdvance = false := by
  obtain ⟨h1, h2, h3, v, hv, rfl⟩ := storeBinary_ok.mp h
  exact ⟨⟨h1, h2, h3, v, hv⟩, rfl, rfl, rfl⟩

theorem jumpWhen_startStep_ok {f : Word → Bool} {p1 p2 : Operand} {s u : State} {n : Nat}
    (h : jumpWhen f p1 p2 (s.startStep n) = .ok u) :
    (s.valReady p1 = true ∧ s.valReady p2 = true) ∧ u.params = s.params ∧
      (f (s.valueOf p1) = false → u.pc = s.pc) ∧ u.flags.suppressAdvance = f (s.valueOf p1) := by
  obtain ⟨h1, h2, rfl⟩ := jumpWhen_ok.mp h
  refine ⟨⟨h1, h2⟩, ?_⟩
  rw [State.valueOf_startStep]
  cases f (s.valueOf p1) with
  | true => exact ⟨rfl, fun h => Bool.noConfusion h, rfl⟩
  | false => exact ⟨rfl, fun _ => rfl, rfl⟩

/-- A body that completes has met the conditions of its instruction, and leaves the advance what it needs: `pc` and
`params` as they were, and the flags that suppress it (R22, R23, R79). -/
theorem bodyOf_ok {i : Instr} {s u : State} {n : Nat} (h : bodyOf i (s.startStep n) = .ok u) :
    s.executes i = true ∧ u.params = s.params ∧ (s.takesJump i = false → u.pc = s.pc) ∧
      u.flags.suppressAdvance = (s.takesJump i || decide (i = .halt)) := by
  cases i with
  | add | mul =>
    rw [bodyOf] at h
    obtain ⟨⟨h1, h2, h3, v, hv⟩, hparams, hpc, hflags⟩ := storeBinary_startStep_ok h
    exact ⟨by simp [State.executes, h1, h2, h3, (check_ok.mp hv).1], hparams, fun _ => hpc, hflags⟩
  | lessThan | equals =>
    rw [bodyOf] at h
    obtain ⟨⟨h1, h2, h3, -⟩, hparams, hpc, hflags⟩ := storeBinary_startStep_ok h
    exact ⟨by simp [State.executes, h1, h2, h3], hparams, fun _ => hpc, hflags⟩
  | jumpIfTrue | jumpIfFalse =>
    rw [bodyOf] at h
    obtain ⟨⟨h1, h2⟩, hparams, hpc, hflags⟩ := jumpWhen_startStep_ok h
    exact ⟨by simp [State.executes, h1, h2], hparams, hpc, by simpa [State.takesJump] using hflags⟩
  | input =>
    obtain ⟨h1, v, q, hq, rfl⟩ := inputBody_ok.mp h
    rw [State.startStep_inq] at hq
    rw [State.addrReady_startStep] at h1
    exact ⟨by simp [State.executes, h1, hq], rfl, fun _ => rfl, rfl⟩
  | output =>
    obtain ⟨h1, hroom, rfl⟩ := outputBody_ok.mp h
    exact ⟨Bool.and_eq_true_iff.mpr ⟨h1, hroom⟩, rfl, fun _ => rfl, rfl⟩
  | adjustRelativeBase =>
    obtain ⟨h1, hrange, rfl⟩ := adjustBody_ok.mp h
    exact ⟨Bool.and_eq_true_iff.mpr ⟨h1, hrange⟩, rfl, fun _ => rfl, rfl⟩
  | halt =>
    obtain rfl := haltBody_ok.mp h
    exact ⟨rfl, rfl, fun _ => rfl, rfl⟩

/-- A body completes when the conditions of its instruction are met. -/
theorem bodyOf_completes {i : Instr} {s : State} (h : s.executes i = true) (n : Nat) :
    ∃ u, bodyOf i (s.startStep n) = .ok u := by
  cases i with
  | add | mul =>
    simp only [State.executes, Bool.and_eq_true] at h
    obtain ⟨⟨⟨h1, h2⟩, h3⟩, hrange⟩ := h
    rw [bodyOf]
    exact ⟨_, (storeBinary_ok (s := s.startStep n)).mpr ⟨h1, h2, h3, _, check_ok.mpr ⟨hrange, rfl⟩, rfl⟩⟩
  | lessThan | equals =>
    simp only [State.executes, Bool.and_eq_true] at h
    obtain ⟨⟨h1, h2⟩, h3⟩ := h
    rw [bodyOf]
    exact ⟨_, (storeBinary_ok (s := s.startStep n)).mpr ⟨h1, h2, h3, _, rfl, rfl⟩⟩
  | jumpIfTrue | jumpIfFalse =>
    obtain ⟨h1, h2⟩ := Bool.and_eq_true_iff.mp h
    rw [bodyOf]
    exact ⟨_, (jumpWhen_ok (s := s.startStep n)).mpr ⟨h1, h2, rfl⟩⟩
  | input =>
    obtain ⟨h1, hq⟩ := Bool.and_eq_true_iff.mp h
    obtain ⟨v, q, hq⟩ : ∃ v q, s.inq = v :: q := List.exists_cons_of_ne_nil (by simpa using hq)
    exact ⟨_, inputBody_ok.mpr ⟨h1, v, q, hq, rfl⟩⟩
  | output =>
    obtain ⟨h1, hroom⟩ := Bool.and_eq_true_iff.mp h
    exact ⟨_, outputBody_ok.mpr ⟨h1, hroom, rfl⟩⟩
  | adjustRelativeBase =>
    obtain ⟨h1, hrange⟩ := Bool.and_eq_true_iff.mp h
    exact ⟨_, adjustBody_ok.mpr ⟨h1, hrange, rfl⟩⟩
  | halt => exact ⟨_, rfl⟩

theorem exec_of_advanceRaises {i : Instr} {s : State} {e : Raised} (h : s.advanceRaises e i) :
    exec i s = .next (s.takeFault e) := by
  obtain ⟨hexec, hhalt, hjump, hrange, rfl⟩ := h
  obtain ⟨u, hu⟩ := bodyOf_completes hexec i.opcode.paramCount
  obtain ⟨-, hparams, hpc, hflags⟩ := bodyOf_ok hu
  rw [hjump, decide_eq_false hhalt, Bool.or_self] at hflags
  have hadvance : u.advance i.opcode.paramCount = .error (.outOfRange (s.pc + 1 + i.opcode.paramCount)) :=
    State.advance_error.mpr ⟨hflags, by rwa [hparams, hpc hjump], by rw [hpc hjump]; rfl⟩
  rw [exec_eq_runStep, State.runStep_of_advance_error hu hadvance]

theorem exec_of_stepRaises {i : Instr} {s : State} {e : Raised} (h : s.stepRaises e i) :
    exec i s = .next (s.takeFault e) := by
  rcases h with hoperand | hexecute | hadvance
  · exact exec_operandsRaise hoperand
  · rw [exec_eq_runStep]
    exact State.runStep_of_error (bodyOf_error.mpr (.inr hexecute))
  · exact exec_of_advanceRaises hadvance

/-- A step that faults has raised one of the faults of its instruction, and takes it (R84, R131). -/
theorem exec_faulted {i : Instr} {s t : State} (h : exec i s = .next t) (hf : t.status = .faulted) :
    ∃ e, t = s.takeFault e ∧ s.stepRaises e i := by
  rw [exec_eq_runStep] at h
  rcases State.runStep_cases h with ⟨e, rfl, hbody | ⟨u, hu, hadvance⟩⟩ | ⟨u, v, -, -, rfl⟩
  · refine ⟨e, rfl, ?_⟩
    rcases bodyOf_error.mp hbody with hoperand | hexecute
    · exact .inl hoperand
    · exact .inr (.inl hexecute)
  · obtain ⟨hexec, hparams, hpc, hflags⟩ := bodyOf_ok hu
    obtain ⟨hsuppress, hrange, rfl⟩ := State.advance_error.mp hadvance
    rw [hsuppress, eq_comm, Bool.or_eq_false_iff, decide_eq_false_iff_not] at hflags
    obtain ⟨hjump, hhalt⟩ := hflags
    rw [hpc hjump] at hrange ⊢
    rw [hparams] at hrange
    exact ⟨_, rfl, .inr (.inr ⟨hexec, hhalt, hjump, hrange, rfl⟩)⟩
  · exact absurd hf v.settle_status_ne_faulted

/-- `exec` of anything answers a next state. -/
theorem exec_next (i : Instr) (s : State) : ∃ t, exec i s = .next t := by
  rw [exec_eq_runStep, State.runStep]
  split
  · exact ⟨_, rfl⟩
  · exact ⟨_, rfl⟩

/-- The two ends of an instruction: it goes through, or it raises a fault and takes it. -/
theorem exec_cases {i : Instr} {s t : State} (h : exec i s = .next t) :
    (s.goes i ∧ t = s.after i) ∨ (¬ s.goes i ∧ ∃ e, t = s.takeFault e ∧ s.stepRaises e i) := by
  rcases (exec_outcomes i s t).2 h with hgoes | ⟨hnot, e, rfl⟩
  · exact .inl hgoes
  · exact .inr ⟨hnot, exec_faulted h rfl⟩

end Sys2Proof.Machine

/-! The two ends of a step: how it ends, when it goes through, and the fault of the advance (R77 to R82, R96). -/

namespace Sys2Proof.Machine

@[simp] theorem State.after_status (s : State) (i : Instr) :
    (s.after i).status = if i = .halt then .halted else .running := rfl

theorem State.after_status_ne_faulted (s : State) (i : Instr) : (s.after i).status ≠ .faulted := by
  rw [State.after_status]
  split <;> decide

theorem exec_status {i : Instr} {s t : State} (h : exec i s = .next t) :
    t.status = .running ∨ t.status = .halted ∨ t.status = .faulted := by
  rcases exec_cases h with ⟨-, rfl⟩ | ⟨-, e, rfl, -⟩
  · rw [State.after_status]
    split
    · exact .inr (.inl rfl)
    · exact .inl rfl
  · exact .inr (.inr rfl)

/-- A step of a live engine, by what its fetch gives (R77). -/
theorem step_next_cases {s t : State} (hlive : s.live = true) (h : step s = .next t) :
    (∃ i, s.fetch = .ok i ∧ exec i s = .next t) ∨ (∃ e, s.fetch = .error e ∧ t = s.takeFault e) := by
  rcases step_cases hlive with ⟨i, hi, hstep⟩ | ⟨e, he, hstep⟩
  · exact .inl ⟨i, hi, hstep ▸ h⟩
  · rw [hstep, Host.Outcome.next.injEq] at h
    exact .inr ⟨e, he, h.symm⟩

theorem step_next (s : State) : ∃ t, step s = .next t := by
  cases hlive : s.live with
  | true =>
    rcases step_cases hlive with ⟨i, -, hstep⟩ | ⟨e, -, hstep⟩
    · rw [hstep]
      exact exec_next i s
    · exact ⟨_, hstep⟩
  | false => exact ⟨s, step_final hlive⟩

theorem step_status {s t : State} (hlive : s.live = true) (h : step s = .next t) :
    t.status = .running ∨ t.status = .halted ∨ t.status = .faulted := by
  rcases step_next_cases hlive h with ⟨i, -, hexec⟩ | ⟨e, -, rfl⟩
  · exact exec_status hexec
  · exact .inr (.inr rfl)

/-- Settles O10: a step goes through, or takes the fault that its fetch or its execution raises. -/
theorem everyStepAnswersNext : Obligations.EveryStepAnswersNext := by
  unfold Obligations.EveryStepAnswersNext
  refine ⟨fun i s => ?_, fun s => ?_⟩
  · obtain ⟨t, ht⟩ := exec_next i s
    exact ⟨t, ht, exec_status ht⟩
  · obtain ⟨t, ht⟩ := step_next s
    exact ⟨t, ht, fun hlive => step_status hlive ht⟩

/-- Settles O12: `goes` is the condition of the statement. -/
theorem completesExactly : Obligations.CompletesExactly := by
  unfold Obligations.CompletesExactly
  intro i s t h
  rcases exec_cases h with ⟨hgoes, rfl⟩ | ⟨hnot, e, rfl, -⟩
  · exact iff_of_true (s.after_status_ne_faulted i) hgoes
  · exact iff_of_false (fun hf => hf rfl) hnot

/-- Settles O14: the execute phase completes, so the advance is the one that can raise. -/
theorem advanceOutOfRange : Obligations.AdvanceOutOfRange := by
  unfold Obligations.AdvanceOutOfRange
  refine ⟨fun i s hexec hhalt hjump hrange => ?_, fun c v hbits => ?_⟩
  · exact exec_of_advanceRaises ⟨hexec, hhalt, hjump, hrange, rfl⟩
  · rw [representable, hbits]

/-- Settles O15: a step that goes through ends in `State.after`. -/
theorem flagsAfterStep : Obligations.FlagsAfterStep := by
  unfold Obligations.FlagsAfterStep
  intro i s t h hf
  obtain ⟨-, rfl⟩ := exec_goes h hf
  refine ⟨by rw [State.after_flags_jump], by rw [State.after_flags_halt, decide_eq_true_iff], ?output, ?vout, ?none⟩
  case output => cases i <;> simp [State.after]
  case vout =>
    rintro p rfl
    rfl
  case none =>
    intro hi
    cases i with
    | output p => exact absurd rfl (hi p)
    | add | mul | input | jumpIfTrue | jumpIfFalse | lessThan | equals | adjustRelativeBase | halt => rfl

/-- Settles O18: the registers of `State.after`, and of an engine that has taken a fault. -/
theorem registerWriters : Obligations.RegisterWriters := by
  unfold Obligations.RegisterWriters
  intro i s t h
  rcases exec_cases h with ⟨-, rfl⟩ | ⟨-, e, rfl, -⟩
  · refine ⟨fun hi => ?rb, fun hjump => ?pc⟩
    case rb =>
      cases i with
      | adjustRelativeBase p => exact absurd rfl (hi p)
      | add | mul | input | output | jumpIfTrue | jumpIfFalse | lessThan | equals | halt => rfl
    case pc =>
      by_cases hhalt : i = .halt
      · subst hhalt
        exact .inl ⟨rfl, .inr rfl⟩
      · have hpc : (s.after i).pc = s.pc + 1 + i.opcode.paramCount :=
          State.after_pc_of_no_flags hjump (decide_eq_false hhalt)
        have hpos : 0 < i.opcode.paramCount := Instr.paramCount_pos hhalt
        have hle : i.opcode.paramCount ≤ 3 := i.opcode.paramCount_le
        dsimp only [Word] at *
        omega
  · exact ⟨fun _ => rfl, fun _ => .inl ⟨rfl, .inl rfl⟩⟩

end Sys2Proof.Machine

/-! What no instruction reads: the length, the flags, the status and the fault record (R25, R36). -/

namespace Sys2Proof.Machine

/-- The engine with other values in the fields that no instruction reads. -/
def State.withHidden (s : State) (l : Nat) (f : Flags) (st : Status) (r : FaultRecord) : State :=
  { s with len := l, flags := f, status := st, fault := r }

section
variable (s : State) (l : Nat) (f : Flags) (st : Status) (r : FaultRecord)

theorem State.goes_withHidden (i : Instr) : (s.withHidden l f st r).goes i ↔ s.goes i := by cases i <;> rfl

theorem State.resolveRaises_withHidden (e : Raised) (k : Nat) (p : Operand) (role : Role) :
    (s.withHidden l f st r).resolveRaises e k p role ↔ s.resolveRaises e k p role := by
  cases role with
  | val =>
    rw [State.resolveRaises, State.resolveRaises, State.resolveVal_error, State.resolveVal_error]
    rfl
  | addr => exact Iff.rfl

theorem State.operandsRaise_withHidden (e : Raised) (k : Nat) (ps : List Operand) (roles : List Role) :
    (s.withHidden l f st r).operandsRaise e k ps roles ↔ s.operandsRaise e k ps roles := by
  induction ps generalizing k roles with
  | nil => rfl
  | cons p ps ih =>
    cases roles with
    | nil => rfl
    | cons role roles => exact or_congr (s.resolveRaises_withHidden l f st r e k p role) (and_congr Iff.rfl (ih _ _))

theorem State.stepRaises_withHidden (e : Raised) (i : Instr) :
    (s.withHidden l f st r).stepRaises e i ↔ s.stepRaises e i := by
  refine or_congr (s.operandsRaise_withHidden l f st r e 1 _ _) (or_congr ?_ ?_)
  · cases i <;> rfl
  · cases i <;> rfl

/-- A step that goes through hands the fault record on and extends the length; the flags and the status it writes. -/
theorem State.after_withHidden (i : Instr) :
    (s.withHidden l f st r).after i =
      { s.after i with len := (s.withHidden l f st r).lenAfter i.opcode.paramCount i.operands, fault := r } := by
  cases i <;> rfl

theorem State.takeFault_withHidden (e : Raised) :
    (s.withHidden l f st r).takeFault e = { s.takeFault e with len := l } := rfl

end

/-- R37, R38: no access shrinks memory. -/
theorem State.le_foldl_reach (s : State) (ps : List Operand) (l : Nat) :
    l ≤ ps.foldl (fun l p => max l (s.reach p)) l := by
  induction ps generalizing l with
  | nil => exact le_rfl
  | cons p ps ih => exact le_trans (le_max_left _ _) (ih _)

theorem State.len_le_lenAfter (s : State) (n : Nat) (ps : List Operand) : s.len ≤ s.lenAfter n ps :=
  le_trans (le_max_left _ _) (s.le_foldl_reach ps _)

/-- Settles O16: whether the step goes through, what it then does and which fault it raises do not depend on the fields
that no instruction reads. -/
theorem instructionsReadNoFlag : Obligations.InstructionsReadNoFlag := by
  unfold Obligations.InstructionsReadNoFlag
  intro i s t f st r h
  change exec i (s.withHidden s.len f st r) = _
  rcases exec_cases h with ⟨hgoes, rfl⟩ | ⟨-, e, rfl, hraises⟩
  · rw [if_neg (s.after_status_ne_faulted i)]
    have hgoes' : (s.withHidden s.len f st r).goes i := (s.goes_withHidden s.len f st r i).mpr hgoes
    rw [(exec_outcomes i _ s).1 hgoes', State.after_withHidden]
    rfl
  · rw [if_pos (s.takeFault_status e), exec_of_stepRaises ((s.stepRaises_withHidden s.len f st r e i).mpr hraises),
      State.takeFault_withHidden]
    rfl

/-- Settles O17: the same for the length, which a step that goes through extends from where it stood. -/
theorem lengthIsInvisible : Obligations.LengthIsInvisible := by
  unfold Obligations.LengthIsInvisible
  intro i s t l h
  change s.len ≤ t.len ∧ ∃ l', l ≤ l' ∧ exec i (s.withHidden l s.flags s.status s.fault) = _
  rcases exec_cases h with ⟨hgoes, rfl⟩ | ⟨-, e, rfl, hraises⟩
  · have hgoes' : (s.withHidden l s.flags s.status s.fault).goes i := (s.goes_withHidden l _ _ _ i).mpr hgoes
    refine ⟨s.len_le_lenAfter _ _, (s.withHidden l s.flags s.status s.fault).lenAfter i.opcode.paramCount i.operands,
      State.len_le_lenAfter (s.withHidden l s.flags s.status s.fault) _ _, ?_⟩
    rw [(exec_outcomes i _ s).1 hgoes', State.after_withHidden]
    rfl
  · refine ⟨le_rfl, l, le_rfl, ?_⟩
    rw [exec_of_stepRaises ((s.stepRaises_withHidden l _ _ _ e i).mpr hraises), State.takeFault_withHidden]

end Sys2Proof.Machine

/-! The faults of operands, of results and of an empty FIFO (R63, R102, R104). -/

namespace Sys2Proof.Machine

/-- R63: a relative sum that is no word is raised by either resolver. -/
theorem State.resolveRaises_relativeSum {s : State} {p : Operand} (hm : p.mode = .relative)
    (hrange : representable s.params (s.rb + p.word) = false) (i : Nat) (r : Role) :
    s.resolveRaises { code := .valueOutOfRange, param := i, info := s.rb + p.word } i p r := by
  cases r with
  | val => exact State.resolveVal_error.mpr (.inr (.inl ⟨hm, hrange, rfl⟩))
  | addr => exact State.resolveAddr_error.mpr (.inr (.inr (.inl ⟨hm, hrange, rfl⟩)))

/-- Settles O36: both resolvers check the sum before they check the address. -/
theorem relativeSumOutOfRange : Obligations.RelativeSumOutOfRange := by
  unfold Obligations.RelativeSumOutOfRange
  intro i k p s hp hready hm hrange
  exact exec_operand_raises hp hready fun r _ => State.resolveRaises_relativeSum hm hrange (k + 1) r

theorem exec_of_executeRaises {i : Instr} {s : State} {e : Raised} (h : s.executeRaises e i) :
    exec i s = .next (s.takeFault e) := exec_of_stepRaises (.inr (.inl h))

/-- Settles O37: the execute phase of the three instructions that check a result. -/
theorem resultOutOfRange : Obligations.ResultOutOfRange := by
  unfold Obligations.ResultOutOfRange
  intro p1 p2 p3 s h1
  refine ⟨fun h2 h3 hrange => ?add, fun h2 h3 hrange => ?mul, fun hrange => ?adjust⟩
  case add => exact exec_of_executeRaises (i := .add p1 p2 p3) ⟨h1, h2, h3, hrange, rfl⟩
  case mul => exact exec_of_executeRaises (i := .mul p1 p2 p3) ⟨h1, h2, h3, hrange, rfl⟩
  case adjust => exact exec_of_executeRaises (i := .adjustRelativeBase p1) ⟨h1, hrange, rfl⟩

/-- Settles O38: the destination resolves, so the pop is what raises. -/
theorem emptyInputFaults : Obligations.EmptyInputFaults := by
  unfold Obligations.EmptyInputFaults
  intro p1 s h1 hq
  exact exec_of_executeRaises (i := .input p1) ⟨h1, hq, rfl⟩

end Sys2Proof.Machine

/-! What a fault says of the engine and of the instruction (R121, R126 to R129). -/

namespace Sys2Proof.Machine

/-- What a raised fault says of the engine it is raised in: it has a code, the index of a parameter or 0, and a
cause. -/
structure State.Explains (s : State) (e : Raised) : Prop where
  coded : e.code ≠ .noFault
  paramLe : e.param ≤ 3
  negative : e.code = .negativeAddress → e.info < 0
  beyond : e.code = .capacityExceeded → ∃ m, s.params.memCells = some m ∧ (m : Int) ≤ e.info
  range : e.code = .valueOutOfRange → s.params.wordBits ≠ none ∧ representable s.params e.info = false
  overflow : e.code = .outputOverflow → ∃ c, s.params.outCapacity = some c ∧ c ≤ s.outq.length

/-- R7: with no width every integer is a word. -/
theorem wordBits_ne_none {c : Config} {v : Word} (h : representable c v = false) : c.wordBits ≠ none := by
  intro hbits
  rw [representable, hbits] at h
  exact Bool.noConfusion h

theorem fits_succ_eq_false {capacity : Option Nat} {n : Nat} (h : fits capacity (n + 1) = false) :
    ∃ c, capacity = some c ∧ c ≤ n := by
  cases capacity with
  | none => exact Bool.noConfusion h
  | some c =>
    have hlt : ¬ n + 1 ≤ c := of_decide_eq_false h
    exact ⟨c, rfl, by omega⟩

/-- The codes that say nothing of the engine's values (R122 to R125). -/
theorem State.explains_of_code {s : State} {e : Raised} (hparam : e.param ≤ 3)
    (hcode : e.code = .unknownOpcode ∨ e.code = .invalidAddressingMode ∨ e.code = .inputExhausted ∨
      e.code = .undefinedMode) : s.Explains e := by
  rcases hcode with h | h | h | h <;> constructor <;> simp [h, hparam]

theorem State.explains_range {s : State} {v : Word} {i : Nat} (hi : i ≤ 3) (h : representable s.params v = false) :
    s.Explains { code := .valueOutOfRange, param := i, info := v } := by
  constructor <;> simp [hi, h, wordBits_ne_none h]

theorem State.explains_of_checkAddr {s : State} {i : Nat} {a : Word} {e : Raised} (hi : i ≤ 3)
    (h : checkAddr s.params i a = .error e) : s.Explains e := by
  rcases checkAddr_error.mp h with ⟨hneg, rfl⟩ | ⟨-, hbeyond, rfl⟩
  · constructor <;> simp [hi, hneg]
  · constructor <;> simp [hi, hbeyond]

theorem State.explains_of_resolveAddr {s : State} {i : Nat} {p : Operand} {e : Raised} (hi : i ≤ 3)
    (h : s.resolveAddr i p = .error e) : s.Explains e := by
  rcases State.resolveAddr_error.mp h with ⟨d, -, rfl⟩ | ⟨-, rfl⟩ | ⟨-, hrange, rfl⟩ | ⟨-, haddr⟩
  · exact State.explains_of_code hi (.inr (.inr (.inr rfl)))
  · exact State.explains_of_code hi (.inr (.inl rfl))
  · exact State.explains_range hi hrange
  · exact State.explains_of_checkAddr hi haddr

/-- A value that does not resolve meets a fault its operand meets as a destination (R67). -/
theorem State.resolveAddr_of_resolveVal {s : State} {i : Nat} {p : Operand} {e : Raised}
    (h : s.resolveVal i p = .error e) : s.resolveAddr i p = .error e :=
  State.resolveAddr_error.mpr ((State.resolveVal_error.mp h).imp id .inr)

theorem State.explains_of_resolveRaises {s : State} {i : Nat} {p : Operand} {r : Role} {e : Raised} (hi : i ≤ 3)
    (h : s.resolveRaises e i p r) : s.Explains e := by
  cases r with
  | val => exact State.explains_of_resolveAddr hi (State.resolveAddr_of_resolveVal h)
  | addr => exact State.explains_of_resolveAddr hi h

/-- The operand that raises, its place and its role. -/
theorem State.operandsRaise_place {s : State} {e : Raised} {i : Nat} {ps : List Operand} {rs : List Role}
    (h : s.operandsRaise e i ps rs) : ∃ k p r, rs[k]? = some r ∧ s.resolveRaises e (i + k) p r := by
  induction ps generalizing i rs with
  | nil => exact h.elim
  | cons p ps ih =>
    cases rs with
    | nil => exact h.elim
    | cons r rs =>
      rcases h with h | ⟨-, h⟩
      · exact ⟨0, p, r, rfl, h⟩
      · obtain ⟨k, p, r, hr, h⟩ := ih h
        exact ⟨k + 1, p, r, hr, by rwa [Nat.add_right_comm] at h⟩

theorem State.explains_of_stepRaises {s : State} {i : Instr} {e : Raised} (h : s.stepRaises e i) : s.Explains e := by
  rcases h with hoperand | hexecute | ⟨-, -, -, hrange, rfl⟩
  case inl =>
    obtain ⟨k, p, r, hr, hraises⟩ := State.operandsRaise_place hoperand
    have hk : k < i.opcode.roles.length := (List.getElem?_eq_some_iff.mp hr).1
    have hle : i.opcode.roles.length ≤ 3 := i.opcode.roles_length_le
    exact State.explains_of_resolveRaises (by omega) hraises
  case inr.inl =>
    cases i with
    | add | mul =>
      obtain ⟨-, -, -, hrange, rfl⟩ := hexecute
      exact State.explains_range (by decide) hrange
    | adjustRelativeBase =>
      obtain ⟨-, hrange, rfl⟩ := hexecute
      exact State.explains_range (by decide) hrange
    | input =>
      obtain ⟨-, -, rfl⟩ := hexecute
      exact State.explains_of_code (by decide) (.inr (.inr (.inl rfl)))
    | output =>
      obtain ⟨-, hfull, rfl⟩ := hexecute
      have hcap := fits_succ_eq_false hfull
      constructor <;> simp [hcap]
    | jumpIfTrue | jumpIfFalse | lessThan | equals | halt => exact hexecute.elim
  case inr.inr => exact State.explains_range (by decide) hrange

theorem State.explains_of_fetch {s : State} {e : Raised} (h : s.fetch = .error e) : s.Explains e := by
  rcases State.fetch_error.mp h with haddr | ⟨-, ⟨info, -, rfl⟩ | ⟨op, -, hcells⟩⟩
  · exact State.explains_of_checkAddr (by decide) haddr
  · exact State.explains_of_code (by simp) (.inl rfl)
  · obtain ⟨j, hj, -, hcell⟩ := checkParamCells_error.mp hcells
    have hle : op.paramCount ≤ 3 := op.paramCount_le
    rcases hcell with ⟨hrange, rfl⟩ | ⟨-, haddr⟩
    · exact State.explains_range (by omega) hrange
    · exact State.explains_of_checkAddr (by omega) haddr

/-- A step of a live engine that faults takes a fault that the engine explains. -/
theorem step_faulted {s t : State} (hlive : s.live = true) (h : step s = .next t) (hf : t.status = .faulted) :
    ∃ e, t = s.takeFault e ∧ s.Explains e := by
  rcases step_next_cases hlive h with ⟨i, -, hexec⟩ | ⟨e, he, rfl⟩
  · obtain ⟨e, rfl, hraises⟩ := exec_faulted hexec hf
    exact ⟨e, rfl, State.explains_of_stepRaises hraises⟩
  · exact ⟨e, rfl, State.explains_of_fetch he⟩

/-- Settles O11: taking a fault writes the status, the record and the flags. -/
theorem faultCommitsNothing : Obligations.FaultCommitsNothing := by
  unfold Obligations.FaultCommitsNothing
  intro s t hlive h hf
  obtain ⟨e, rfl, he⟩ := step_faulted hlive h hf
  exact ⟨rfl, rfl, he.coded⟩

/-- Settles O40: the record holds the code and the info of a fault that the engine explains. -/
theorem faultCausesAreReal : Obligations.FaultCausesAreReal := by
  unfold Obligations.FaultCausesAreReal
  intro s t hlive h hf
  obtain ⟨e, rfl, he⟩ := step_faulted hlive h hf
  exact ⟨he.negative, he.beyond, he.range, he.overflow⟩

/-- What the code of a raised fault says of the instruction that raises it (R121). -/
structure CanRaise (i : Instr) (code : FaultCode) : Prop where
  notHalt : i ≠ .halt
  decoded : code ≠ .unknownOpcode
  destination : code = .invalidAddressingMode → Role.addr ∈ i.opcode.roles
  input : code = .inputExhausted → ∃ p, i = .input p
  output : code = .outputOverflow → ∃ p, i = .output p

theorem ne_halt_of_role {i : Instr} {r : Role} (h : r ∈ i.opcode.roles) : i ≠ .halt := by
  rintro rfl
  exact List.not_mem_nil h

/-- R82, R102, R116: every instruction but halt computes a value that may be out of range. -/
theorem canRaise_range {i : Instr} (h : i ≠ .halt) : CanRaise i .valueOutOfRange := by constructor <;> simp [h]

theorem canRaise_of_checkAddr {c : Config} {n : Nat} {a : Word} {e : Raised} {i : Instr} (hi : i ≠ .halt)
    (h : checkAddr c n a = .error e) : CanRaise i e.code := by
  rcases checkAddr_error.mp h with ⟨-, rfl⟩ | ⟨-, -, rfl⟩ <;> constructor <;> simp [hi]

/-- R62, R66: an operand raises `InvalidAddressingMode` only as a destination, and no fault of a FIFO. -/
theorem canRaise_of_resolveRaises {s : State} {i : Instr} {n : Nat} {p : Operand} {r : Role} {e : Raised}
    (hr : r ∈ i.opcode.roles) (h : s.resolveRaises e n p r) : CanRaise i e.code := by
  have hi : i ≠ .halt := ne_halt_of_role hr
  have undefined : CanRaise i .undefinedMode := by constructor <;> simp [hi]
  cases r with
  | val =>
    rcases State.resolveVal_error.mp h with ⟨d, -, rfl⟩ | ⟨-, -, rfl⟩ | ⟨-, haddr⟩
    · exact undefined
    · exact canRaise_range hi
    · exact canRaise_of_checkAddr hi haddr
  | addr =>
    rcases State.resolveAddr_error.mp h with ⟨d, -, rfl⟩ | ⟨-, rfl⟩ | ⟨-, -, rfl⟩ | ⟨-, haddr⟩
    · exact undefined
    · constructor <;> simp [hi, hr]
    · exact canRaise_range hi
    · exact canRaise_of_checkAddr hi haddr

theorem canRaise_of_stepRaises {s : State} {i : Instr} {e : Raised} (h : s.stepRaises e i) : CanRaise i e.code := by
  rcases h with hoperand | hexecute | ⟨-, hhalt, -, -, rfl⟩
  case inl =>
    obtain ⟨k, p, r, hr, hraises⟩ := State.operandsRaise_place hoperand
    exact canRaise_of_resolveRaises (List.mem_of_getElem? hr) hraises
  case inr.inl =>
    cases i with
    | add | mul =>
      obtain ⟨-, -, -, -, rfl⟩ := hexecute
      exact canRaise_range Instr.noConfusion
    | adjustRelativeBase =>
      obtain ⟨-, -, rfl⟩ := hexecute
      exact canRaise_range Instr.noConfusion
    | input =>
      obtain ⟨-, -, rfl⟩ := hexecute
      constructor <;> simp
    | output =>
      obtain ⟨-, -, rfl⟩ := hexecute
      constructor <;> simp
    | jumpIfTrue | jumpIfFalse | lessThan | equals | halt => exact hexecute.elim
  case inr.inr => exact canRaise_range hhalt

/-- Settles O41: the step took one of the faults that its instruction can raise. -/
theorem faultsByInstruction : Obligations.FaultsByInstruction := by
  unfold Obligations.FaultsByInstruction
  intro i s t h hf
  obtain ⟨e, rfl, hraises⟩ := exec_faulted h hf
  have hcan : CanRaise i e.code := canRaise_of_stepRaises hraises
  exact ⟨hcan.notHalt, hcan.decoded, hcan.destination, hcan.input, hcan.output⟩

end Sys2Proof.Machine

/-! The whole next state of an instruction that goes through (41_arithmetic.md to 46_halt.md). -/

namespace Sys2Proof.Machine

theorem exec_of_goes {i : Instr} {s : State} (h : s.goes i) : exec i s = .next (s.after i) := (exec_outcomes i s s).1 h

/-- R79: an instruction whose execute phase completes and whose advance is a word goes through. -/
theorem State.goes_of_advance {s : State} {i : Instr} {npc : Word} (hexec : s.executes i = true)
    (hnpc : s.pc + 1 + i.opcode.paramCount = npc) (hrange : representable s.params npc = true) : s.goes i :=
  ⟨hexec, .inr (.inr (by rwa [hnpc]))⟩

/-- The instructions that store a result of two values, once their operands resolve and the result is a word. -/
theorem exec_store {i : Instr} {p1 p2 p3 : Operand} {s : State} {v : Word}
    (hi : i = .add p1 p2 p3 ∨ i = .mul p1 p2 p3 ∨ i = .lessThan p1 p2 p3 ∨ i = .equals p1 p2 p3)
    (hstores : s.stores i = some (s.cellOf p3, v)) (hexec : s.executes i = true)
    (hrange : representable s.params (s.pc + 4) = true) :
    exec i s = .next { s with
      mem := s.mem.write (s.cellOf p3) v
      len := s.lenAfter 3 [p1, p2, p3], pc := s.pc + 4, status := .running, flags := Flags.clear } := by
  have hnpc : s.pc + 1 + (3 : Nat) = s.pc + 4 := Int.add_assoc s.pc 1 3
  rcases hi with rfl | rfl | rfl | rfl <;>
    · cases hstores
      rw [exec_of_goes (State.goes_of_advance hexec hnpc hrange), ← hnpc]
      rfl

/-- Settles O20: `exec_store`, with the exact sum stored. -/
theorem addStoresSum : Obligations.AddStoresSum := by
  unfold Obligations.AddStoresSum
  intro p1 p2 p3 s h1 h2 h3 hsum hrange
  have hexec : s.executes (.add p1 p2 p3) = true := by simp [State.executes, h1, h2, h3, hsum]
  exact exec_store (.inl rfl) rfl hexec hrange

/-- Settles O21: `exec_store`, with the exact product stored. -/
theorem mulStoresProduct : Obligations.MulStoresProduct := by
  unfold Obligations.MulStoresProduct
  intro p1 p2 p3 s h1 h2 h3 hproduct hrange
  have hexec : s.executes (.mul p1 p2 p3) = true := by simp [State.executes, h1, h2, h3, hproduct]
  exact exec_store (.inr (.inl rfl)) rfl hexec hrange

/-- Settles O26: the comparison itself has no condition. -/
theorem lessThanStoresOneOrZero : Obligations.LessThanStoresOneOrZero := by
  unfold Obligations.LessThanStoresOneOrZero
  intro p1 p2 p3 s h1 h2 h3 hrange
  have hexec : s.executes (.lessThan p1 p2 p3) = true := by simp [State.executes, h1, h2, h3]
  exact exec_store (.inr (.inr (.inl rfl))) rfl hexec hrange

/-- Settles O27: `exec_store`, with no condition on the result. -/
theorem equalsStoresOneOrZero : Obligations.EqualsStoresOneOrZero := by
  unfold Obligations.EqualsStoresOneOrZero
  intro p1 p2 p3 s h1 h2 h3 hrange
  have hexec : s.executes (.equals p1 p2 p3) = true := by simp [State.executes, h1, h2, h3]
  exact exec_store (.inr (.inr (.inr rfl))) rfl hexec hrange

theorem add_one_add_one (v : Word) : v + 1 + (1 : Nat) = v + 2 := Int.add_assoc v 1 1

/-- Settles O22: `State.after`, whose value and queue are the head and the tail of `inq`. -/
theorem inputPopsOldest : Obligations.InputPopsOldest := by
  unfold Obligations.InputPopsOldest
  intro p1 v q s h1 hq hrange
  have hexec : s.executes (.input p1) = true := by simp [State.executes, h1, hq]
  have hhead : s.inq.headD 0 = v := by rw [hq, List.headD_cons]
  have htail : s.inq.tail = q := by rw [hq, List.tail_cons]
  rw [exec_of_goes (State.goes_of_advance hexec (add_one_add_one s.pc) hrange), ← add_one_add_one, ← hhead, ← htail]
  rfl

/-- Settles O23: the fields of `State.after`. -/
theorem outputAppends : Obligations.OutputAppends := by
  unfold Obligations.OutputAppends
  intro p1 s h1 hroom hrange
  have hexec : s.executes (.output p1) = true := by simp [State.executes, h1, hroom]
  rw [exec_of_goes (State.goes_of_advance hexec (add_one_add_one s.pc) hrange), ← add_one_add_one]
  rfl

/-- Settles O28: the fields of `State.after`; `valueOf` reads the operand at the old `rb`. -/
theorem adjustRelativeBaseAdds : Obligations.AdjustRelativeBaseAdds := by
  unfold Obligations.AdjustRelativeBaseAdds
  intro p1 s h1 hbase hrange
  have hexec : s.executes (.adjustRelativeBase p1) = true := by simp [State.executes, h1, hbase]
  rw [exec_of_goes (State.goes_of_advance hexec (add_one_add_one s.pc) hrange), ← add_one_add_one]
  rfl

/-- A jump that is taken loads the target unchecked (R110, R111). -/
theorem exec_jump_taken {i : Instr} {p1 p2 : Operand} {s : State} (hi : i = .jumpIfTrue p1 p2 ∨ i = .jumpIfFalse p1 p2)
    (h1 : s.valReady p1 = true) (h2 : s.valReady p2 = true) (hjump : s.takesJump i = true) :
    exec i s = .next { s with
      len := s.lenAfter 2 [p1, p2], pc := s.valueOf p2, status := .running
      flags := { jump := true, halt := false, output := false, vout := none } } := by
  have hgoes : s.goes i := ⟨by rcases hi with rfl | rfl <;> simp [State.executes, h1, h2], .inr (.inl hjump)⟩
  rw [exec_of_goes hgoes]
  rcases hi with rfl | rfl <;> simp [State.after, hjump, State.jumpTarget, State.stores, Instr.opcode, Instr.operands,
    Opcode.paramCount]

/-- A jump that is not taken advances by 3 (R79). -/
theorem exec_jump_not_taken {i : Instr} {p1 p2 : Operand} {s : State}
    (hi : i = .jumpIfTrue p1 p2 ∨ i = .jumpIfFalse p1 p2) (h1 : s.valReady p1 = true) (h2 : s.valReady p2 = true)
    (hjump : s.takesJump i = false) (hrange : representable s.params (s.pc + 3) = true) :
    exec i s = .next { s with
      len := s.lenAfter 2 [p1, p2], pc := s.pc + 3, status := .running, flags := Flags.clear } := by
  have hexec : s.executes i = true := by rcases hi with rfl | rfl <;> simp [State.executes, h1, h2]
  have hnpc : s.pc + 1 + i.opcode.paramCount = s.pc + 3 := by
    rcases hi with rfl | rfl <;> exact Int.add_assoc s.pc 1 2
  rw [exec_of_goes (State.goes_of_advance hexec hnpc hrange), ← hnpc]
  rcases hi with rfl | rfl <;> simp [State.after, hjump, State.stores, Instr.opcode, Instr.operands, Opcode.paramCount,
    Flags.clear]

/-- Settles O24: the condition decides whether the jump is taken. -/
theorem jumpIfTrueBranches : Obligations.JumpIfTrueBranches := by
  unfold Obligations.JumpIfTrueBranches
  intro p1 p2 s h1 h2
  exact ⟨fun hcond => exec_jump_taken (.inl rfl) h1 h2 (bne_iff_ne.mpr hcond),
    fun hcond hrange => exec_jump_not_taken (.inl rfl) h1 h2 (bne_eq_false_iff_eq.mpr hcond) hrange⟩

/-- Settles O25: the condition decides whether the jump is taken. -/
theorem jumpIfFalseBranches : Obligations.JumpIfFalseBranches := by
  unfold Obligations.JumpIfFalseBranches
  intro p1 p2 s h1 h2
  exact ⟨fun hcond => exec_jump_taken (.inr rfl) h1 h2 (beq_iff_eq.mpr hcond),
    fun hcond hrange => exec_jump_not_taken (.inr rfl) h1 h2 (beq_eq_false_iff_ne.mpr hcond) hrange⟩

/-- Settles O29: halt has no operand and no advance, so it goes through on every state. -/
theorem haltStops : Obligations.HaltStops := by
  unfold Obligations.HaltStops
  intro s
  have hlen : s.lenAfter 0 [] = max s.len (s.pc + 1).toNat := by
    rw [State.lenAfter, Int.natCast_zero, Int.add_zero]
    rfl
  rw [exec_of_goes ⟨rfl, .inl rfl⟩, ← hlen]
  rfl

end Sys2Proof.Machine

/-! Frames: what a step leaves unchanged (R36 to R41). -/

namespace Sys2Proof.Machine

/-- R41: an instruction that goes through changes no cell but the one it stores to. -/
theorem State.read_after_of_ne {s : State} {i : Instr} {d b : Nat} {v : Word} (h : s.stores i = some (d, v))
    (hb : b ≠ d) : (s.after i).mem.read b = s.mem.read b := by
  have hmem : (s.after i).mem = s.mem.write d v := by simp only [State.after, h]
  rw [hmem, Memory.read_write_other _ _ hb]

theorem State.mem_after_of_stores_none {s : State} {i : Instr} (h : s.stores i = none) : (s.after i).mem = s.mem := by
  simp only [State.after, h]

theorem State.read_after_of_resolveAddr {s : State} {i : Instr} {n a : Nat} {p : Operand} {v : Word}
    (h : s.stores i = some (s.cellOf p, v)) (ha : s.resolveAddr n p = .ok a) (b : Nat) (hb : b ≠ a) :
    (s.after i).mem.read b = s.mem.read b := by
  obtain ⟨-, rfl⟩ := State.resolveAddr_ok.mp ha
  exact State.read_after_of_ne h hb

/-- Settles O31: the fields of `State.after`, for the five instructions that store. -/
theorem storingFrame : Obligations.StoringFrame := by
  unfold Obligations.StoringFrame
  intro i p1 p2 p3 s t h hf
  obtain ⟨-, rfl⟩ := exec_goes h hf
  refine ⟨fun hi => ?binary, ?input⟩
  case binary =>
    rcases hi with rfl | rfl | rfl | rfl <;>
      exact ⟨fun a ha => State.read_after_of_resolveAddr rfl ha, rfl, rfl, rfl, rfl, rfl, rfl⟩
  case input =>
    rintro rfl
    exact ⟨fun a ha => State.read_after_of_resolveAddr rfl ha, rfl, rfl, rfl, rfl, rfl⟩

/-- Settles O32: the fields of `State.after`, for the instructions that store nothing. -/
theorem nonStoringFrame : Obligations.NonStoringFrame := by
  unfold Obligations.NonStoringFrame
  intro i p1 p2 s t h hf hi
  obtain ⟨-, rfl⟩ := exec_goes h hf
  have hstores : s.stores i = none := by rcases hi with rfl | rfl | rfl | rfl | rfl <;> rfl
  refine ⟨fun b => by rw [State.mem_after_of_stores_none hstores], ?inq, rfl, rfl, ?outq, ?rb, ?pc⟩
  case inq => rcases hi with rfl | rfl | rfl | rfl | rfl <;> rfl
  case outq =>
    intro hout
    rcases hi with rfl | rfl | rfl | rfl | rfl
    · exact absurd rfl (hout p1)
    all_goals rfl
  case rb =>
    intro hadjust
    rcases hi with rfl | rfl | rfl | rfl | rfl
    case inr.inr.inr.inl => exact absurd rfl (hadjust p1)
    all_goals rfl
  case pc =>
    rintro rfl
    rfl

end Sys2Proof.Machine

/-! Memory as data, and words that are stored and then fetched or read (R49, R117). -/

namespace Sys2Proof.Machine

theorem Memory.read_head (a : Nat) (v : Word) (m : Memory) : Memory.read ((a, v) :: m) a = v := if_pos rfl

/-- The first cell listed is the least address that reads as something other than 0. -/
theorem Memory.head_le {a b : Nat} {v w : Word} {m n : Memory} (hm : Memory.wf ((a, v) :: m))
    (hn : Memory.wf ((b, w) :: n)) (h : ∀ c, Memory.read ((a, v) :: m) c = Memory.read ((b, w) :: n) c) : b ≤ a := by
  by_contra hlt
  obtain ⟨hbelow, -, -⟩ := Memory.wf_cons hn
  obtain ⟨-, hv, -⟩ := Memory.wf_cons hm
  have hzero : Memory.read ((b, w) :: n) a = 0 := by
    refine Memory.read_of_below fun x hx => ?_
    rcases List.mem_cons.mp hx with rfl | hx
    · exact not_le.mp hlt
    · exact lt_trans (not_le.mp hlt) (hbelow x hx)
  exact hv (by rw [← Memory.read_head a v m, h a, hzero])

theorem Memory.eq_nil_of_read_eq_zero {m : Memory} (hm : m.wf) (h : ∀ a, m.read a = 0) : m = [] := by
  cases m with
  | nil => rfl
  | cons x m =>
    obtain ⟨a, v⟩ := x
    obtain ⟨-, hv, -⟩ := Memory.wf_cons hm
    exact absurd (by rw [← h a, Memory.read_head]) hv

theorem Memory.ext_read {m n : Memory} (hm : m.wf) (hn : n.wf) (h : ∀ a, m.read a = n.read a) : m = n := by
  induction m generalizing n with
  | nil => exact (Memory.eq_nil_of_read_eq_zero hn fun a => (h a).symm).symm
  | cons x m ih =>
    cases n with
    | nil => exact Memory.eq_nil_of_read_eq_zero hm h
    | cons y n =>
      obtain ⟨a, v⟩ := x
      obtain ⟨b, w⟩ := y
      obtain rfl : a = b := le_antisymm (Memory.head_le hn hm fun c => (h c).symm) (Memory.head_le hm hn h)
      obtain rfl : v = w := by rw [← Memory.read_head a v m, h a, Memory.read_head]
      obtain ⟨hbelow, -, htail⟩ := Memory.wf_cons hm
      obtain ⟨hbelow', -, htail'⟩ := Memory.wf_cons hn
      have hrest : ∀ c, Memory.read m c = Memory.read n c := by
        intro c
        by_cases hc : a < c
        · simpa [Memory.read_cons, hc.ne'] using h c
        · rw [Memory.read_of_below fun x hx => lt_of_le_of_lt (not_lt.mp hc) (hbelow x hx),
            Memory.read_of_below fun x hx => lt_of_le_of_lt (not_lt.mp hc) (hbelow' x hx)]
      rw [ih htail htail' hrest]

/-- Settles O43: by induction, the least cells are equal and so are the rests. -/
theorem memoryIsWhatItReads : Obligations.MemoryIsWhatItReads := by
  unfold Obligations.MemoryIsWhatItReads
  intro m n hm hn h
  exact Memory.ext_read hm hn h

/-- Settles O44: the cell that `pc` points at reads the word just stored, so the decoder reads that word. -/
theorem storedWordIsDecoded : Obligations.StoredWordIsDecoded := by
  unfold Obligations.StoredWordIsDecoded
  intro i j d v rest s t hs h hrun hstores hpc hvalid hdecode hready
  have hlive : t.live = true := by rw [State.live, hrun]; rfl
  obtain ⟨-, rfl⟩ := exec_goes h (by rw [hrun]; decide)
  have hread : (s.after i).mem.read d = v := State.read_after_of_stores hs hstores
  refine step_of_fetch_ok hlive (State.fetch_of_decode (rest := rest) hvalid ?_ hready)
  rwa [hpc, Int.toNat_natCast, hread]

/-- R73: an instruction stores to the cell of its last operand, and leaves `rb` alone. -/
theorem State.stores_last {s : State} {i : Instr} {p : Operand} {d : Nat} {v : Word}
    (hlast : i.operands.getLast? = some p) (hstores : s.stores i = some (d, v)) :
    d = s.cellOf p ∧ (s.after i).rb = s.rb := by
  cases i with
  | add | mul | lessThan | equals | input =>
    cases hlast
    cases hstores
    exact ⟨rfl, rfl⟩
  | output | jumpIfTrue | jumpIfFalse | adjustRelativeBase | halt => cases hstores

/-- Settles O45: `rb` is unchanged, so the output reads the cell stored to. -/
theorem relativeRoundTrip : Obligations.RelativeRoundTrip := by
  unfold Obligations.RelativeRoundTrip
  intro i k v d s t u hs hlast hstores hstore hf houtput hf'
  obtain ⟨-, rfl⟩ := exec_goes hstore hf
  obtain ⟨-, rfl⟩ := exec_goes houtput hf'
  obtain ⟨rfl, hrb⟩ := State.stores_last hlast hstores
  have hvalue : (s.after i).valueOf { mode := .relative, word := k } = v := by
    rw [← State.read_after_of_stores hs hstores]
    simp only [State.valueOf, State.cellOf, hrb]
  rw [← hvalue]
  rfl

end Sys2Proof.Machine

/-! Every step keeps the invariant (10_state.md, 20_memory.md section 1). -/

namespace Sys2Proof.Machine

theorem representable_zero (c : Config) : representable c 0 = true := by
  unfold representable
  split
  · rfl
  · rename_i w _
    have hpos : (0 : Int) < 2 ^ (w - 1) := by positivity
    exact decide_eq_true ⟨by dsimp only [Word]; omega, by dsimp only [Word]; omega⟩

theorem fits_mono {capacity : Option Nat} {m n : Nat} (h : fits capacity n = true) (hle : m ≤ n) :
    fits capacity m = true := by
  cases capacity with
  | none => rfl
  | some c => exact decide_eq_true (le_trans hle (of_decide_eq_true h))

theorem fits_max {capacity : Option Nat} {m n : Nat} (hm : fits capacity m = true) (hn : fits capacity n = true) :
    fits capacity (max m n) = true := by
  rcases max_choice m n with h | h <;> rwa [h]

/-- R34, R40: the memory that an address of the address space reaches. -/
theorem fits_of_validAddr {c : Config} {a : Word} (h : validAddr c a = true) :
    fits c.memCells (a + 1).toNat = true := by
  unfold validAddr at h
  split at h
  next hcells => rw [hcells]; rfl
  next m hcells =>
    obtain ⟨hnonneg, hlt⟩ := of_decide_eq_true h
    rw [hcells]
    exact decide_eq_true (by dsimp only [Word] at *; omega)

section
variable {s : State} {p : Operand}

/-- R65: a ready address is one of the address space. -/
theorem State.fits_reach_of_addrReady (h : s.addrReady p = true) : fits s.params.memCells (s.reach p) = true := by
  have hcell : ∀ a : Word, validAddr s.params a = true → fits s.params.memCells (a.toNat + 1) = true := by
    intro a ha
    rw [← Int.toNat_add_nat (validAddr_nonneg ha)]
    exact fits_of_validAddr ha
  unfold State.addrReady at h
  unfold State.reach State.cellOf
  split at h
  next hm =>
    rw [hm]
    exact hcell _ h
  next hm =>
    rw [hm]
    exact hcell _ (Bool.and_eq_true_iff.mp h).2
  next => exact Bool.noConfusion h
  next => exact Bool.noConfusion h

theorem State.fits_reach_of_valReady (h : s.valReady p = true) : fits s.params.memCells (s.reach p) = true := by
  cases hm : p.mode with
  | immediate =>
    rw [State.reach, hm]
    exact fits_zero _
  | position | relative =>
    rw [State.valReady, hm] at h
    exact State.fits_reach_of_addrReady h
  | undefined d =>
    rw [State.valReady, hm] at h
    exact Bool.noConfusion h

end

/-- R37, R38, R40: where an instruction goes through, each of its accesses stays within memory. -/
theorem State.fits_reach_of_executes {s : State} {i : Instr} (h : s.executes i = true) {p : Operand}
    (hp : p ∈ i.operands) : fits s.params.memCells (s.reach p) = true := by
  have hval : ∀ {q : Operand}, s.valReady q = true → fits s.params.memCells (s.reach q) = true :=
    State.fits_reach_of_valReady
  have haddr : ∀ {q : Operand}, s.addrReady q = true → fits s.params.memCells (s.reach q) = true :=
    State.fits_reach_of_addrReady
  cases i with
  | add | mul | lessThan | equals =>
    simp only [State.executes, Bool.and_eq_true] at h
    simp only [Instr.operands, List.mem_cons, List.not_mem_nil, or_false] at hp
    rcases hp with rfl | rfl | rfl
    · exact hval (by tauto)
    · exact hval (by tauto)
    · exact haddr (by tauto)
  | jumpIfTrue | jumpIfFalse =>
    simp only [State.executes, Bool.and_eq_true] at h
    simp only [Instr.operands, List.mem_cons, List.not_mem_nil, or_false] at hp
    rcases hp with rfl | rfl
    · exact hval h.1
    · exact hval h.2
  | input =>
    obtain rfl := List.mem_singleton.mp hp
    exact haddr (Bool.and_eq_true_iff.mp h).1
  | output | adjustRelativeBase =>
    obtain rfl := List.mem_singleton.mp hp
    exact hval (Bool.and_eq_true_iff.mp h).1
  | halt => exact absurd hp List.not_mem_nil

theorem State.fits_lenAfter {s : State} {n : Nat} {ps : List Operand} {capacity : Option Nat}
    (hstart : fits capacity (max s.len (s.pc + n + 1).toNat) = true)
    (hreach : ∀ p ∈ ps, fits capacity (s.reach p) = true) : fits capacity (s.lenAfter n ps) = true := by
  have hfold : ∀ l, fits capacity l = true → fits capacity (ps.foldl (fun l p => max l (s.reach p)) l) = true := by
    induction ps with
    | nil => exact fun l hl => hl
    | cons p ps ih =>
      obtain ⟨hp, hps⟩ := List.forall_mem_cons.mp hreach
      exact fun l hl => ih hps _ (fits_max hl hp)
  exact hfold _ hstart

/-- R37, R38: memory is long enough for every access after it. -/
theorem State.reach_le_lenAfter {s : State} {n : Nat} {ps : List Operand} {p : Operand} (hp : p ∈ ps) :
    s.reach p ≤ s.lenAfter n ps := by
  have hfold : ∀ l, s.reach p ≤ ps.foldl (fun l p => max l (s.reach p)) l := by
    induction ps with
    | nil => exact absurd hp List.not_mem_nil
    | cons q ps ih =>
      intro l
      rcases List.mem_cons.mp hp with rfl | hp
      · exact le_trans (le_max_right _ _) (s.le_foldl_reach ps _)
      · exact ih hp _
  exact hfold _

/-- R66: an instruction that executes has resolved the destination it stores to. -/
theorem State.stores_ready {s : State} {i : Instr} {d : Nat} {v : Word} (h : s.executes i = true)
    (hstores : s.stores i = some (d, v)) : ∃ p ∈ i.operands, s.addrReady p = true ∧ d = s.cellOf p := by
  cases i with
  | add p1 p2 p3 | mul p1 p2 p3 | lessThan p1 p2 p3 | equals p1 p2 p3 =>
    cases hstores
    simp only [State.executes, Bool.and_eq_true] at h
    exact ⟨p3, by simp [Instr.operands], by tauto, rfl⟩
  | input p1 =>
    cases hstores
    exact ⟨p1, List.mem_singleton_self p1, (Bool.and_eq_true_iff.mp h).1, rfl⟩
  | output | jumpIfTrue | jumpIfFalse | adjustRelativeBase | halt => cases hstores

theorem State.stores_lt_lenAfter {s : State} {i : Instr} {d : Nat} {v : Word} (h : s.executes i = true)
    (hstores : s.stores i = some (d, v)) (n : Nat) : d < s.lenAfter n i.operands := by
  obtain ⟨p, hp, hready, rfl⟩ := State.stores_ready h hstores
  have hreach : s.reach p ≤ s.lenAfter n i.operands := State.reach_le_lenAfter hp
  rwa [State.reach_of_addrReady hready] at hreach

theorem State.after_pc_of_jump {s : State} {i : Instr} (h : s.takesJump i = true) :
    (s.after i).pc = s.jumpTarget i := by
  have hhalt : i ≠ .halt := by
    rintro rfl
    cases h
  simp only [State.after, if_neg hhalt, if_pos h]

section
variable {s : State} (hs : s.Inv)
include hs

theorem State.Inv.read_word (a : Nat) : representable s.params (s.mem.read a) = true := by
  rcases Memory.read_mem s.mem a with hzero | hlisted
  · rw [hzero]
    exact representable_zero _
  · exact hs.wordsInMem _ hlisted

theorem State.Inv.valueOf_word {p : Operand} (hp : representable s.params p.word = true) :
    representable s.params (s.valueOf p) = true := by
  unfold State.valueOf
  split
  · exact hp
  · exact hs.read_word _
  · exact hs.read_word _
  · exact representable_zero _

theorem State.Inv.headD_inq_word : representable s.params (s.inq.headD 0) = true := by
  cases hq : s.inq with
  | nil => exact representable_zero _
  | cons v q => exact hs.wordsInInq v (by rw [hq]; exact List.mem_cons_self)

/-- R100 to R113: a step that goes through stores a word; the 1 of a compare is a word by the invariant. -/
theorem State.Inv.stored_word {i : Instr} {d : Nat} {v : Word} (h : s.executes i = true)
    (hstores : s.stores i = some (d, v)) : representable s.params v = true := by
  cases i with
  | add | mul =>
    cases hstores
    exact (Bool.and_eq_true_iff.mp h).2
  | lessThan | equals =>
    cases hstores
    split
    · exact hs.oneIsWord
    · exact representable_zero _
  | input =>
    cases hstores
    exact hs.headD_inq_word
  | output | jumpIfTrue | jumpIfFalse | adjustRelativeBase | halt => cases hstores

/-- A cell that is listed after a step that goes through: the one stored to, or one that was listed before. -/
theorem State.Inv.after_cell {i : Instr} {x : Nat × Word} (h : s.executes i = true) (hx : x ∈ (s.after i).mem) :
    x.1 < (s.after i).len ∧ representable s.params x.2 = true := by
  have hold : x ∈ s.mem → x.1 < (s.after i).len ∧ representable s.params x.2 = true := fun hx =>
    ⟨lt_of_lt_of_le (hs.zeroAbove x hx) (s.len_le_lenAfter _ _), hs.wordsInMem x hx⟩
  cases hstores : s.stores i with
  | none =>
    rw [State.mem_after_of_stores_none hstores] at hx
    exact hold hx
  | some dv =>
    obtain ⟨d, v⟩ := dv
    simp only [State.after, hstores] at hx
    rcases Memory.mem_write hx with ⟨rfl, -⟩ | hx
    · exact ⟨State.stores_lt_lenAfter h hstores _, hs.stored_word h hstores⟩
    · exact hold hx

theorem State.Inv.after_canonical (i : Instr) : (s.after i).mem.wf := by
  cases hstores : s.stores i with
  | none =>
    rw [State.mem_after_of_stores_none hstores]
    exact hs.canonical
  | some dv =>
    simp only [State.after, hstores]
    exact Memory.wf_write hs.canonical _ _

/-- R79, R110: `pc` after a step that goes through is the old one, the advanced one, which is checked, or a target,
which is a word because operands hold words. -/
theorem State.Inv.after_pc {i : Instr} (hwords : ∀ p ∈ i.operands, representable s.params p.word = true)
    (hgo : s.goes i) : representable s.params (s.after i).pc = true := by
  obtain ⟨-, hgo⟩ := hgo
  by_cases hhalt : i = .halt
  · rw [hhalt]
    exact hs.wordInPc
  · by_cases hjump : s.takesJump i = true
    · cases i with
      | jumpIfTrue p1 p2 | jumpIfFalse p1 p2 =>
        rw [State.after_pc_of_jump hjump]
        exact hs.valueOf_word (hwords p2 (by simp [Instr.operands]))
      | add | mul | input | output | lessThan | equals | adjustRelativeBase | halt => cases hjump
    · have hpc : (s.after i).pc = s.pc + 1 + i.opcode.paramCount := by
        simp only [State.after, if_neg hhalt, if_neg hjump]
      rw [hpc]
      exact (hgo.resolve_left hhalt).resolve_left hjump

theorem State.Inv.after_rb {i : Instr} (h : s.executes i = true) : representable s.params (s.after i).rb = true := by
  cases i with
  | adjustRelativeBase => exact (Bool.and_eq_true_iff.mp h).2
  | add | mul | input | output | jumpIfTrue | jumpIfFalse | lessThan | equals | halt => exact hs.wordInRb

theorem State.Inv.after_inq (i : Instr) :
    (∀ v ∈ (s.after i).inq, representable s.params v = true) ∧
      fits s.params.inCapacity (s.after i).inq.length = true := by
  cases i with
  | input =>
    exact ⟨fun v hv => hs.wordsInInq v (List.mem_of_mem_tail hv),
      fits_mono hs.inqFits (by simp [State.after])⟩
  | add | mul | output | jumpIfTrue | jumpIfFalse | lessThan | equals | adjustRelativeBase | halt =>
    exact ⟨hs.wordsInInq, hs.inqFits⟩

theorem State.Inv.after_outq {i : Instr} (hwords : ∀ p ∈ i.operands, representable s.params p.word = true)
    (h : s.executes i = true) :
    (∀ v ∈ (s.after i).outq, representable s.params v = true) ∧
      fits s.params.outCapacity (s.after i).outq.length = true := by
  cases i with
  | output p =>
    refine ⟨fun v hv => ?_, ?_⟩
    · rcases List.mem_append.mp hv with hv | hv
      · exact hs.wordsInOutq v hv
      · rw [List.mem_singleton.mp hv]
        exact hs.valueOf_word (hwords p (List.mem_singleton_self p))
    · simpa [State.after] using (Bool.and_eq_true_iff.mp h).2
  | add | mul | input | jumpIfTrue | jumpIfFalse | lessThan | equals | adjustRelativeBase | halt =>
    exact ⟨hs.wordsInOutq, hs.outqFits⟩

end

/-- R24, R77: `v_out` exists after a step that goes through exactly if the step is an output. -/
theorem State.after_vout (s : State) (i : Instr) : (s.after i).flags.vout.isSome = (s.after i).flags.output := by
  cases i <;> rfl

theorem ne_faulted_of_live {s : State} (h : s.live = true) : s.status ≠ .faulted := by
  intro hf
  rw [State.live, hf] at h
  exact Bool.noConfusion h

/-- A step that goes through keeps the invariant, if its operands hold words and its own cells are within memory. -/
theorem State.Inv.after {s : State} {i : Instr} (hs : s.Inv) (hlive : s.live = true)
    (hwords : ∀ p ∈ i.operands, representable s.params p.word = true)
    (hcells : fits s.params.memCells (s.pc + i.opcode.paramCount + 1).toNat = true) (hgo : s.goes i) :
    (s.after i).Inv where
  canonical := hs.after_canonical i
  zeroAbove _ hx := (hs.after_cell hgo.1 hx).1
  withinCells := State.fits_lenAfter (fits_max hs.withinCells hcells) fun _ hp => State.fits_reach_of_executes hgo.1 hp
  wordsInMem _ hx := (hs.after_cell hgo.1 hx).2
  wordInPc := hs.after_pc hwords hgo
  wordInRb := hs.after_rb hgo.1
  wordsInInq := (hs.after_inq i).1
  wordsInOutq := (hs.after_outq hwords hgo.1).1
  inqFits := (hs.after_inq i).2
  outqFits := (hs.after_outq hwords hgo.1).2
  noFault _ := hs.noFault (ne_faulted_of_live hlive)
  faultCoded hf := absurd hf (s.after_status_ne_faulted i)
  readyFresh hready := by
    rw [State.after_status] at hready
    split at hready <;> cases hready
  haltedByFlag hhalted := by
    rw [State.after_status] at hhalted
    split at hhalted
    next hi => rw [State.after_flags_halt, hi]; rfl
    next => cases hhalted
  suspendedByOutput hsuspended := by
    rw [State.after_status] at hsuspended
    split at hsuspended <;> cases hsuspended
  voutWithOutput := s.after_vout i
  oneIsWord := hs.oneIsWord

/-- Taking a fault keeps the invariant, if the record is one that the engine explains (R28, R84). -/
theorem State.Inv.takeFault {s : State} {e : Raised} (hs : s.Inv) (he : s.Explains e) : (s.takeFault e).Inv where
  canonical := hs.canonical
  zeroAbove := hs.zeroAbove
  withinCells := hs.withinCells
  wordsInMem := hs.wordsInMem
  wordInPc := hs.wordInPc
  wordInRb := hs.wordInRb
  wordsInInq := hs.wordsInInq
  wordsInOutq := hs.wordsInOutq
  inqFits := hs.inqFits
  outqFits := hs.outqFits
  noFault hf := absurd rfl hf
  faultCoded _ := ⟨he.coded, rfl, he.paramLe⟩
  readyFresh h := Status.noConfusion h
  haltedByFlag h := Status.noConfusion h
  suspendedByOutput h := Status.noConfusion h
  voutWithOutput := rfl
  oneIsWord := hs.oneIsWord

/-- R53: the parameter words of an assembled instruction are among the three cells it is given. -/
theorem word_mem_of_assemble {op : Opcode} {raw : Nat} {c1 c2 c3 : Word} {p : Operand}
    (hp : p ∈ (assemble op raw c1 c2 c3).operands) : p.word ∈ [c1, c2, c3] := by
  cases op with
  | add | mul | lessThan | equals | jumpIfTrue | jumpIfFalse | input | output | adjustRelativeBase =>
    simp only [assemble, Instr.operands, List.mem_cons, List.not_mem_nil, or_false] at hp ⊢
    rcases hp with rfl | rfl | rfl <;> simp
  | halt => exact absurd hp List.not_mem_nil

theorem State.Inv.fetched_words {s : State} {i : Instr} (hs : s.Inv) (h : s.fetch = .ok i) :
    ∀ p ∈ i.operands, representable s.params p.word = true := by
  obtain ⟨-, op, -, -, rfl⟩ := State.fetch_ok.mp h
  intro p hp
  have hword := word_mem_of_assemble hp
  simp only [List.mem_cons, List.not_mem_nil, or_false] at hword
  rcases hword with hw | hw | hw <;> rw [hw] <;> exact hs.read_word _

/-- R59: the fetch has checked the opcode's cell and every parameter cell, the last one among them. -/
theorem State.fits_of_fetch {s : State} {i : Instr} (h : s.fetch = .ok i) :
    fits s.params.memCells (s.pc + i.opcode.paramCount + 1).toNat = true := by
  obtain ⟨hpc, op, -, hcells, rfl⟩ := State.fetch_ok.mp h
  rw [assemble_opcode]
  refine fits_of_validAddr ?_
  rcases Nat.eq_zero_or_pos op.paramCount with hzero | hpos
  · rwa [hzero, Int.natCast_zero, Int.add_zero]
  · exact (checkParamCells_ok.mp hcells op.paramCount hpos (by omega)).2

theorem State.Inv.after_step {s t : State} (hs : s.Inv) (h : step s = .next t) : t.Inv := by
  cases hlive : s.live with
  | true =>
    rcases step_next_cases hlive h with ⟨i, hfetch, hexec⟩ | ⟨e, hfetch, rfl⟩
    · rcases exec_cases hexec with ⟨hgo, rfl⟩ | ⟨-, e, rfl, hraises⟩
      · exact hs.after hlive (hs.fetched_words hfetch) (State.fits_of_fetch hfetch) hgo
      · exact hs.takeFault (State.explains_of_stepRaises hraises)
    · exact hs.takeFault (State.explains_of_fetch hfetch)
  | false =>
    rw [step_final hlive, Host.Outcome.next.injEq] at h
    exact h ▸ hs

/-- Settles O46: a step goes through, takes a fault, or does nothing, and each keeps the invariant. -/
theorem stepKeepsInvariant : Obligations.StepKeepsInvariant := by
  unfold Obligations.StepKeepsInvariant
  intro s t hs h
  exact hs.after_step h

end Sys2Proof.Machine

/-! What the host's commands keep, by one induction over the loops of RUN and RESUME (R85 to R99). -/

namespace Sys2Proof.Machine

theorem step_eq_stepState (s : State) : step s = .next (stepState s) := by
  obtain ⟨t, ht⟩ := step_next s
  rw [stepState, ht]

theorem stepState_of_step {s t : State} (h : step s = .next t) : stepState s = t := by rw [stepState, h]

theorem State.live_eq_true_iff {s : State} : s.live = true ↔ s.status.isFinal = false := by simp [State.live]

section
variable {σ : Type} {view : σ → State} {upd : (State → State) → σ → σ}

/-- The end of RUN's loop is reached by steps alone. -/
theorem runLoop_keeps {P : σ → Prop} (hstep : ∀ x, P x → P (upd stepState x)) {fuel : Nat} {x y : σ} {r : Response}
    (h : runLoop view upd fuel x = some (r, y)) (hx : P x) : P y := by
  induction fuel generalizing x with
  | zero => cases h
  | succ fuel ih =>
    rw [runLoop] at h
    split at h
    · cases h
      exact hstep x hx
    · exact ih h (hstep x hx)

/-- The end of RESUME's loop is reached by steps, and by a suspension after an output (R89, R90). -/
theorem resumeLoop_keeps {P : σ → Prop} (hstep : ∀ x, P x → P (upd stepState x))
    (hsuspend : ∀ x v, P x → (view x).live = true → (view x).flags.vout = some v →
      P (upd (fun s => s.setStatus .suspended) x))
    {fuel : Nat} {x y : σ} {r : Response} (h : resumeLoop view upd fuel x = some (r, y)) (hx : P x) : P y := by
  induction fuel generalizing x with
  | zero => cases h
  | succ fuel ih =>
    rw [resumeLoop] at h
    split at h
    next =>
      cases h
      exact hstep x hx
    next hlive =>
      split at h
      next v hv =>
        cases h
        exact hsuspend _ v (hstep x hx) (State.live_eq_true_iff.mpr (Bool.eq_false_of_not_eq_true hlive)) hv
      next => exact ih h (hstep x hx)

/-- RUN and RESUME refuse an engine that has ended, reject the words, or queue them and loop (R87, R89, R93). -/
theorem drive_cases {loop : σ → Option (Response × σ)} {words : List Word} {x y : σ} {r : Response}
    (h : drive view upd loop words x = some (r, y)) :
    ((view x).live = false ∧ r = .ended (view x).status (view x).fault ∧ y = x) ∨ (r = .rejected ∧ y = x) ∨
      ∃ s, (view x).live = true ∧ (view x).pushInputs words = some s ∧ loop (upd (fun _ => s) x) = some (r, y) := by
  rw [drive] at h
  split at h
  next hfinal =>
    cases h
    exact .inl ⟨State.live_eq_false_iff.mpr hfinal, rfl, rfl⟩
  next hlive =>
    split at h
    next =>
      cases h
      exact .inr (.inl ⟨rfl, rfl⟩)
    next s hs => exact .inr (.inr ⟨s, State.live_eq_true_iff.mpr (Bool.eq_false_of_not_eq_true hlive), hs, h⟩)

theorem drive_keeps {P : σ → Prop} {loop : σ → Option (Response × σ)} {words : List Word} {x y : σ} {r : Response}
    (hqueue : ∀ s, P x → (view x).pushInputs words = some s → P (upd (fun _ => s) x))
    (hloop : ∀ z, loop z = some (r, y) → P z → P y) (h : drive view upd loop words x = some (r, y)) (hx : P x) :
    P y := by
  rcases drive_cases h with ⟨-, -, rfl⟩ | ⟨-, rfl⟩ | ⟨s, -, hs, hl⟩
  · exact hx
  · exact hx
  · exact hloop _ hl (hqueue s hx hs)

end

/-- What LOAD creates, and of which programs (R142, R144). -/
theorem load_some {c : Config} {program : List Word} {inDev outDev : Option (List Word)} {t : State}
    (h : load c program inDev outDev = some t) :
    (∀ w ∈ program, representable c w = true) ∧ fits c.memCells program.length = true ∧
      t = State.loaded c program inDev outDev := by
  rw [load] at h
  split at h
  next haccepted =>
    obtain ⟨hwords, hfits⟩ := Bool.and_eq_true_iff.mp haccepted
    cases h
    exact ⟨List.all_eq_true.mp hwords, hfits, rfl⟩
  next => cases h

theorem perform_run (fuel : Nat) (seed : List Word) (s : State) :
    perform fuel (.run seed) s = drive id (fun f => f) (runLoop id (fun f => f) fuel) seed s := rfl

theorem perform_resume (fuel : Nat) (inputs : List Word) (s : State) :
    perform fuel (.resume inputs) s = drive id (fun f => f) (resumeLoop id (fun f => f) fuel) inputs s := rfl

/-- What a transaction of the host can do to an engine (R85): a property that each of these keeps is kept by every
command. -/
structure KeptByHost (P : State → Prop) : Prop where
  step : ∀ s, P s → P (stepState s)
  suspend : ∀ s v, P s → s.live = true → s.flags.vout = some v → P (s.setStatus .suspended)
  queue : ∀ s words t, P s → s.pushInputs words = some t → P t
  pop : ∀ s v q, P s → s.outq = v :: q → P (s.setOutq q)
  grow : ∀ s a, P s → validAddr s.params a = true → P (s.growTo (a.toNat + 1))
  write : ∀ s a v, P s → validAddr s.params a = true → representable s.params v = true → P (s.memWrite a.toNat v)

theorem perform_keeps {P : State → Prop} (hP : KeptByHost P) {fuel : Nat} {cmd : Command} {r : Response} {s t : State}
    (hload : ∀ program inDev outDev, cmd = .load program inDev outDev →
      load s.params program inDev outDev = some t → P t)
    (h : perform fuel cmd s = some (r, t)) (hs : P s) : P t := by
  cases cmd with
  | load program inDev outDev =>
    rw [perform, State.loadCommand] at h
    split at h
    next u hu =>
      cases h
      exact hload program inDev outDev rfl hu
    next => cases h; exact hs
  | step =>
    rw [perform, State.stepCommand] at h
    split at h <;> cases h
    · exact hs
    · exact hP.step s hs
  | run seed =>
    rw [perform_run] at h
    exact drive_keeps (hP.queue s seed) (fun _ hl => runLoop_keeps hP.step hl) h hs
  | resume inputs =>
    rw [perform_resume] at h
    exact drive_keeps (hP.queue s inputs) (fun _ hl => resumeLoop_keeps hP.step hP.suspend hl) h hs
  | inPush v =>
    rw [perform, State.inPush] at h
    split at h
    next u hu =>
      cases h
      exact hP.queue s [v] _ hs hu
    next => cases h; exact hs
  | outPop =>
    rw [perform, State.outPop] at h
    split at h
    next => cases h; exact hs
    next v q hq =>
      cases h
      exact hP.pop s v q hs hq
  | memGet a =>
    rw [perform, State.memGet] at h
    split at h
    next ha =>
      cases h
      exact hP.grow s a hs ha
    next => cases h; exact hs
  | memSet a v =>
    rw [perform, State.memSet] at h
    split at h
    next hav =>
      cases h
      obtain ⟨ha, hv⟩ := Bool.and_eq_true_iff.mp hav
      exact hP.write s a v hs ha hv
    next => cases h; exact hs
  | readStatus =>
    cases h
    exact hs

theorem step_params {s t : State} (h : step s = .next t) : t.params = s.params := by
  cases hlive : s.live with
  | true =>
    rcases step_next_cases hlive h with ⟨i, -, hexec⟩ | ⟨e, -, rfl⟩
    · rcases exec_cases hexec with ⟨-, rfl⟩ | ⟨-, e, rfl, -⟩
      · rfl
      · rfl
    · rfl
  | false =>
    rw [step_final hlive, Host.Outcome.next.injEq] at h
    rw [h]

theorem State.pushInputs_params {s t : State} {words : List Word} (h : s.pushInputs words = some t) :
    t.params = s.params := by
  obtain ⟨-, rfl⟩ := State.pushInputs_some.mp h
  rfl

theorem keptByHost_params (c : Config) : KeptByHost fun s => s.params = c where
  step s hs := (step_params (step_eq_stepState s)).trans hs
  suspend _ _ hs _ _ := hs
  queue _ _ _ hs h := (State.pushInputs_params h).trans hs
  pop _ _ _ hs _ := hs
  grow _ _ hs _ := hs
  write _ _ _ hs _ _ := hs

theorem perform_params {fuel : Nat} {cmd : Command} {r : Response} {s t : State}
    (h : perform fuel cmd s = some (r, t)) : t.params = s.params := by
  refine perform_keeps (keptByHost_params s.params) (fun program inDev outDev _ hload => ?_) h rfl
  obtain ⟨-, -, rfl⟩ := load_some hload
  rfl

/-- Settles O19: no transaction writes the parameters, and LOAD passes them on. -/
theorem parametersNeverChange : Obligations.ParametersNeverChange := by
  unfold Obligations.ParametersNeverChange
  exact ⟨fun _ _ h => step_params h, fun _ _ _ _ _ h => perform_params h⟩

end Sys2Proof.Machine

/-! Every host command keeps the invariant (40_sequencing.md section 2, 70_reset_and_hazards.md section 1). -/

namespace Sys2Proof.Machine

section
variable {s : State} (hs : s.Inv)
include hs

/-- R89, R90: RESUME suspends a live engine after an output. -/
theorem State.Inv.suspend {v : Word} (hlive : s.live = true) (hv : s.flags.vout = some v) :
    (s.setStatus .suspended).Inv :=
  { hs with
    noFault := fun _ => hs.noFault (ne_faulted_of_live hlive)
    faultCoded := fun h => Status.noConfusion h
    readyFresh := fun h => Status.noConfusion h
    haltedByFlag := fun h => Status.noConfusion h
    suspendedByOutput := fun _ => by rw [State.setStatus_flags, ← hs.voutWithOutput, hv, Option.isSome_some] }

/-- R99: words are queued only if each is a word and all of them fit. -/
theorem State.Inv.queue {words : List Word} {t : State} (h : s.pushInputs words = some t) : t.Inv := by
  obtain ⟨hwords, rfl⟩ := State.pushInputs_some.mp h
  rcases hwords with rfl | ⟨hrange, hfits⟩
  · rwa [List.append_nil]
  · exact { hs with
      wordsInInq := fun v hv => (List.mem_append.mp hv).elim (hs.wordsInInq v) (hrange v)
      inqFits := by rw [State.setInq_params, State.setInq_inq, List.length_append]; exact hfits }

theorem State.Inv.pop {v : Word} {q : List Word} (hq : s.outq = v :: q) : (s.setOutq q).Inv :=
  { hs with
    wordsInOutq := fun w hw => hs.wordsInOutq w (by rw [hq]; exact List.mem_cons_of_mem _ hw)
    outqFits := fits_mono hs.outqFits (by rw [hq]; exact Nat.le_succ _) }

/-- R36, R40: memory grows to hold a cell of the address space. -/
theorem State.Inv.grow {a : Word} (ha : validAddr s.params a = true) : (s.growTo (a.toNat + 1)).Inv :=
  { hs with
    zeroAbove := fun x hx => lt_of_lt_of_le (hs.zeroAbove x hx) (le_max_left _ _)
    withinCells := by
      rw [← Int.toNat_add_nat (validAddr_nonneg ha)]
      exact fits_max hs.withinCells (fits_of_validAddr ha) }

theorem State.Inv.write {a v : Word} (ha : validAddr s.params a = true) (hv : representable s.params v = true) :
    (s.memWrite a.toNat v).Inv :=
  { hs.grow ha with
    canonical := Memory.wf_write hs.canonical _ _
    zeroAbove := fun x hx => by
      rcases Memory.mem_write hx with ⟨rfl, -⟩ | hx
      · exact lt_of_lt_of_le (Nat.lt_succ_self _) (le_max_right _ _)
      · exact (hs.grow ha).zeroAbove x hx
    wordsInMem := fun x hx => by
      rcases Memory.mem_write hx with ⟨rfl, -⟩ | hx
      · exact hv
      · exact hs.wordsInMem x hx }

end

/-- R142, R143: LOAD of a program that fits, with devices that do. -/
theorem State.loaded_inv {c : Config} {program : List Word} {inDev outDev : Option (List Word)}
    (hone : representable c 1 = true) (hwords : ∀ w ∈ program, representable c w = true)
    (hfits : fits c.memCells program.length = true) (hin : deviceOk c c.inCapacity inDev = true)
    (hout : deviceOk c c.outCapacity outDev = true) : (State.loaded c program inDev outDev).Inv := by
  obtain ⟨hinWords, hinFits⟩ := Bool.and_eq_true_iff.mp hin
  obtain ⟨houtWords, houtFits⟩ := Bool.and_eq_true_iff.mp hout
  exact {
    canonical := Memory.wf_ofWords 0 program
    zeroAbove := fun x hx => by
      have hx : x.1 < 0 + program.length := (Memory.mem_ofWords hx).2.1
      rwa [Nat.zero_add] at hx
    withinCells := hfits
    wordsInMem := fun x hx => hwords _ (Memory.mem_ofWords hx).2.2
    wordInPc := representable_zero c
    wordInRb := representable_zero c
    wordsInInq := List.all_eq_true.mp hinWords
    wordsInOutq := List.all_eq_true.mp houtWords
    inqFits := hinFits
    outqFits := houtFits
    noFault := fun _ => rfl
    faultCoded := fun h => Status.noConfusion h
    readyFresh := fun _ => ⟨rfl, rfl, rfl⟩
    haltedByFlag := fun h => Status.noConfusion h
    suspendedByOutput := fun h => Status.noConfusion h
    voutWithOutput := rfl
    oneIsWord := hone }

/-- Settles O47: reset is LOAD of the empty program with default devices. -/
theorem resetHasInvariant : Obligations.ResetHasInvariant := by
  unfold Obligations.ResetHasInvariant
  exact State.loaded_inv (c := Config.default) (program := []) (inDev := none) (outDev := none) rfl
    (fun _ hw => nomatch hw) rfl rfl rfl

theorem keptByHost_inv : KeptByHost State.Inv where
  step s hs := hs.after_step (step_eq_stepState s)
  suspend _ _ hs hlive hv := hs.suspend hlive hv
  queue _ _ _ hs h := hs.queue h
  pop _ _ _ hs hq := hs.pop hq
  grow _ _ hs ha := hs.grow ha
  write _ _ _ hs ha hv := hs.write ha hv

/-- Settles O48: each transaction keeps the invariant, and LOAD is given devices that have it. -/
theorem commandsKeepInvariant : Obligations.CommandsKeepInvariant := by
  unfold Obligations.CommandsKeepInvariant
  intro fuel cmd r s t hs hdevices h
  refine perform_keeps keptByHost_inv (fun program inDev outDev hcmd hload => ?_) h hs
  obtain ⟨hwords, hfits, rfl⟩ := load_some hload
  rw [hcmd] at hdevices
  obtain ⟨hin, hout⟩ := Bool.and_eq_true_iff.mp hdevices
  exact State.loaded_inv hs.oneIsWord hwords hfits hin hout

end Sys2Proof.Machine

/-! What each command answers, and the status it leaves (R86 to R99). -/

namespace Sys2Proof.Machine

/-- Settles O52: the two commands decide on the address and, for MEM_SET, on the word. -/
theorem hostMemoryAccess : Obligations.HostMemoryAccess := by
  unfold Obligations.HostMemoryAccess
  intro fuel a v s
  refine ⟨fun ha => ?get, fun ha => ?getRejected, fun ha hv hs => ?set, fun hav => ?setRejected⟩
  case get => exact congrArg some (if_pos ha)
  case getRejected => exact congrArg some (if_neg (by rw [ha]; decide))
  case set =>
    refine ⟨s.memWrite a.toNat v, congrArg some (if_pos (by rw [ha, hv]; rfl)), rfl, fun b => ?_⟩
    split
    next hb => rw [hb, State.memWrite_mem, Memory.read_write_same hs]
    next hb => rw [State.memWrite_mem, Memory.read_write_other _ _ hb]
  case setRejected =>
    refine congrArg some (if_neg ?_)
    rw [Bool.and_eq_true_iff]
    rintro ⟨ha, hv⟩
    rcases hav with h | h
    · exact Bool.false_ne_true (h.symm.trans ha)
    · exact Bool.false_ne_true (h.symm.trans hv)

/-- R99: one word is queued if it is a word of the engine and there is room. -/
theorem State.pushInputs_one {s : State} {v : Word} (hv : representable s.params v = true)
    (hroom : fits s.params.inCapacity (s.inq.length + 1) = true) :
    s.pushInputs [v] = some (s.setInq (s.inq ++ [v])) :=
  State.pushInputs_some.mpr ⟨.inr ⟨fun w hw => by rwa [List.mem_singleton.mp hw], hroom⟩, rfl⟩

theorem State.pushInputs_one_full {s : State} {v : Word} (hfull : fits s.params.inCapacity (s.inq.length + 1) = false) :
    s.pushInputs [v] = none := by
  cases h : s.pushInputs [v] with
  | none => rfl
  | some t =>
    obtain ⟨hnil | ⟨-, hroom⟩, -⟩ := State.pushInputs_some.mp h
    · cases hnil
    · exact absurd (hfull.symm.trans hroom) Bool.false_ne_true

/-- Settles O53: a FIFO that holds its capacity has no room for one word more. -/
theorem fifoCommands : Obligations.FifoCommands := by
  unfold Obligations.FifoCommands
  intro fuel v s
  refine ⟨fun hv hroom => ?push, fun c hcap hlen => ?full, fun q hq => ?pop, fun hq => ?empty⟩
  case push =>
    rw [perform, State.inPush, State.pushInputs_one hv hroom]
    rfl
  case full =>
    have hfull : fits s.params.inCapacity (s.inq.length + 1) = false := by rw [hcap, hlen, fits_self_succ]
    rw [perform, State.inPush, State.pushInputs_one_full hfull]
  case pop =>
    rw [perform, State.outPop, hq]
    rfl
  case empty => rw [perform, State.outPop, hq]

theorem State.stepCommand_live {s : State} (hlive : s.live = true) :
    s.stepCommand = (.stepped (stepState s).flags (stepState s).status (stepState s).fault, stepState s) :=
  if_neg (by rw [State.live_eq_true_iff.mp hlive]; decide)

/-- Settles O54: the status after a step is never Suspended. -/
theorem stepCommandReports : Obligations.StepCommandReports := by
  unfold Obligations.StepCommandReports
  intro fuel s t hlive h
  refine ⟨?_, fun hsuspended => ?_⟩
  · rw [perform, State.stepCommand_live hlive, stepState_of_step h]
  · have hstatus := step_status hlive h
    rw [hsuspended] at hstatus
    simp at hstatus

/-- R90, R105: a step that gives a value back is an output that went through: the value stands at the tail of `outq`. -/
theorem step_vout {s t : State} {v : Word} (hlive : s.live = true) (h : step s = .next t) (hv : t.flags.vout = some v) :
    t.outq = s.outq ++ [v] ∧ t.inq = s.inq ∧ t.flags.output = true ∧ t.live = true := by
  rcases step_next_cases hlive h with ⟨i, -, hexec⟩ | ⟨e, -, rfl⟩
  · rcases exec_cases hexec with ⟨-, rfl⟩ | ⟨-, e, rfl, -⟩
    · cases i with
      | output p =>
        cases hv
        exact ⟨rfl, rfl, rfl, rfl⟩
      | add | mul | input | jumpIfTrue | jumpIfFalse | lessThan | equals | adjustRelativeBase | halt => cases hv
    · cases hv
  · cases hv

section
variable {σ : Type} {view : σ → State} {upd : (State → State) → σ → σ}

theorem runLoop_ended {fuel : Nat} {x y : σ} {r : Response} (h : runLoop view upd fuel x = some (r, y)) :
    r = .ended (view y).status (view y).fault ∧ (view y).live = false := by
  induction fuel generalizing x with
  | zero => cases h
  | succ fuel ih =>
    rw [runLoop] at h
    split at h
    next hfinal =>
      cases h
      exact ⟨rfl, State.live_eq_false_iff.mpr hfinal⟩
    next => exact ih h

/-- A loop that has returned returns the same under a larger bound (log entry 8). -/
theorem runLoop_add {fuel : Nat} {x : σ} {res : Response × σ} (h : runLoop view upd fuel x = some res) (more : Nat) :
    runLoop view upd (fuel + more) x = some res := by
  induction fuel generalizing x with
  | zero => cases h
  | succ fuel ih =>
    rw [Nat.succ_add, runLoop]
    rw [runLoop] at h
    split at h
    next hfinal => rw [if_pos hfinal, h]
    next hlive => rw [if_neg hlive, ih h]

theorem resumeLoop_add {fuel : Nat} {x : σ} {res : Response × σ} (h : resumeLoop view upd fuel x = some res)
    (more : Nat) : resumeLoop view upd (fuel + more) x = some res := by
  induction fuel generalizing x with
  | zero => cases h
  | succ fuel ih =>
    rw [Nat.succ_add, resumeLoop]
    rw [resumeLoop] at h
    split at h
    next hfinal => rw [if_pos hfinal, h]
    next hlive =>
      rw [if_neg hlive]
      split at h
      next => exact h
      next => exact ih h

theorem drive_mono {loop loop' : σ → Option (Response × σ)} {words : List Word} {x : σ} {res : Response × σ}
    (hloop : ∀ z, loop z = some res → loop' z = some res) (h : drive view upd loop words x = some res) :
    drive view upd loop' words x = some res := by
  rw [drive] at h ⊢
  split at h
  next hfinal => rw [if_pos hfinal, h]
  next hlive =>
    rw [if_neg hlive]
    split at h
    next => exact h
    next => exact hloop _ h

end

/-- Settles O55: the loop of RUN ends where the engine has. -/
theorem runEndsFinal : Obligations.RunEndsFinal := by
  unfold Obligations.RunEndsFinal
  intro fuel seed r s t h
  rw [perform_run] at h
  refine ⟨?_, fun more => drive_mono (fun _ hloop => runLoop_add hloop more) h⟩
  rcases drive_cases h with ⟨hfinal, rfl, rfl⟩ | ⟨rfl, rfl⟩ | ⟨u, -, -, hloop⟩
  · exact .inr ⟨rfl, hfinal⟩
  · exact .inl ⟨rfl, rfl⟩
  · exact .inr (runLoop_ended hloop)

/-- The loop of RESUME ends where the engine has, or suspends it after a step that was an output (R89, R90). -/
theorem resumeLoop_returns {fuel : Nat} {s t : State} {r : Response}
    (h : resumeLoop id (fun f => f) fuel s = some (r, t)) :
    r = .ended t.status t.fault ∧ t.live = false ∨
      ∃ v, r = .yielded v ∧ t.status = .suspended ∧ t.flags.output = true ∧ t.outq.getLast? = some v := by
  induction fuel generalizing s with
  | zero => cases h
  | succ fuel ih =>
    rw [resumeLoop] at h
    split at h
    next hfinal =>
      cases h
      exact .inl ⟨rfl, State.live_eq_false_iff.mpr hfinal⟩
    next hlive =>
      split at h
      next v hv =>
        cases h
        have hstep : step s = .next (stepState s) := step_eq_stepState s
        have hs : s.live = true := by
          by_contra hs
          have hstay : stepState s = s := stepState_of_step (step_final (Bool.eq_false_of_not_eq_true hs))
          exact hlive (State.live_eq_false_iff.mp (by rw [id, hstay]; exact Bool.eq_false_of_not_eq_true hs))
        obtain ⟨houtq, -, houtput, -⟩ := step_vout hs hstep hv
        exact .inr ⟨v, rfl, rfl, houtput, by rw [State.setStatus_outq, houtq, List.getLast?_concat]⟩
      next => exact ih h

/-- Settles O57: RESUME ends as its loop does. -/
theorem resumeReturns : Obligations.ResumeReturns := by
  unfold Obligations.ResumeReturns
  intro fuel inputs r s t h
  rw [perform_resume] at h
  refine ⟨?_, fun more => drive_mono (fun _ hloop => resumeLoop_add hloop more) h⟩
  rcases drive_cases h with ⟨hfinal, rfl, rfl⟩ | ⟨rfl, rfl⟩ | ⟨u, -, -, hloop⟩
  · exact .inr (.inl ⟨rfl, hfinal⟩)
  · exact .inl ⟨rfl, rfl⟩
  · exact .inr (resumeLoop_returns hloop)

/-- RUN and RESUME of a live engine that takes the words are their loops from the engine with the words queued. -/
theorem drive_live {s s' : State} {words : List Word} (hlive : s.live = true) (hs' : s.pushInputs words = some s')
    (loop : State → Option (Response × State)) : drive id (fun f => f) loop words s = loop s' := by
  rw [drive, if_neg (by rw [id, State.live_eq_true_iff.mp hlive]; decide), id, hs']

/-- Settles O56: one turn of each loop. -/
theorem runAndResumeUnfold : Obligations.RunAndResumeUnfold := by
  unfold Obligations.RunAndResumeUnfold
  intro fuel words s s' t hlive hs' hstep
  obtain ⟨-, hqueued⟩ := State.pushInputs_some.mp hs'
  have hlive' : s'.live = true := by rw [hqueued]; exact hlive
  have hrun : perform (fuel + 1) (.run words) s = runLoop id (fun f => f) (fuel + 1) s' := drive_live hlive hs' _
  have hresume : perform (fuel + 1) (.resume words) s = resumeLoop id (fun f => f) (fuel + 1) s' :=
    drive_live hlive hs' _
  rw [runLoop, stepState_of_step hstep] at hrun
  rw [resumeLoop, stepState_of_step hstep] at hresume
  have goes_on : t.live = true → ¬ t.status.isFinal = true := fun ht => by rw [State.live_eq_true_iff.mp ht]; decide
  refine ⟨hqueued, fun ht => ?ended, fun ht => ?run, fun v hv => ?yielded, fun ht hv => ?resume⟩
  case ended =>
    have hfinal : t.status.isFinal = true := State.live_eq_false_iff.mp ht
    exact ⟨hrun.trans (if_pos hfinal), hresume.trans (if_pos hfinal)⟩
  case run => exact (hrun.trans (if_neg (goes_on ht))).trans (drive_live ht (State.pushInputs_nil t) _).symm
  case yielded =>
    obtain ⟨-, -, -, ht⟩ := step_vout hlive' hstep hv
    refine hresume.trans ((if_neg (goes_on ht)).trans ?_)
    rw [id, hv]
    rfl
  case resume =>
    refine (hresume.trans (if_neg (goes_on ht))).trans ?_
    rw [id, hv]
    exact (drive_live ht (State.pushInputs_nil t) _).symm

theorem status_of_not_live {s : State} (h : s.live = false) : s.status = .halted ∨ s.status = .faulted := by
  rw [State.live_eq_false_iff] at h
  cases hst : s.status with
  | halted => exact .inl rfl
  | faulted => exact .inr rfl
  | ready | running | suspended =>
    rw [hst] at h
    cases h

/-- The commands that run no step and load nothing leave the status alone. -/
theorem perform_status_eq {fuel : Nat} {cmd : Command} {r : Response} {s t : State}
    (hcmd : (∃ v, cmd = .inPush v) ∨ cmd = .outPop ∨ (∃ a, cmd = .memGet a) ∨ ∃ a v, cmd = .memSet a v)
    (h : perform fuel cmd s = some (r, t)) : t.status = s.status := by
  have hsame := ((finalEnginesStay fuel s).2.1 s.status cmd hcmd).symm.trans h
  rw [h] at hsame
  exact (congrArg (fun x => x.2.status) (Option.some.inj hsame)).symm

/-- Settles O58: LOAD, STEP, RUN and RESUME by what they answer; the others write no status. -/
theorem statusTransitions : Obligations.StatusTransitions := by
  unfold Obligations.StatusTransitions
  intro fuel cmd r s t h
  cases cmd with
  | load program inDev outDev =>
    rw [perform, State.loadCommand] at h
    split at h
    next u hu =>
      cases h
      obtain ⟨-, -, rfl⟩ := load_some hu
      exact .inl ⟨rfl, rfl⟩
    next =>
      cases h
      exact .inr ⟨rfl, rfl⟩
  | step =>
    intro hlive
    rw [perform, State.stepCommand_live hlive] at h
    cases h
    exact step_status hlive (step_eq_stepState s)
  | run seed =>
    intro _
    rcases (runEndsFinal fuel seed r s t h).1 with hrejected | ⟨-, hfinal⟩
    · exact .inl hrejected
    · exact .inr (status_of_not_live hfinal)
  | resume inputs =>
    intro _
    rcases (resumeReturns fuel inputs r s t h).1 with hrejected | ⟨-, hfinal⟩ | ⟨v, -, hsuspended, -, -⟩
    · exact .inl hrejected
    · exact .inr (.inr (status_of_not_live hfinal))
    · exact .inr (.inl hsuspended)
  | inPush v => exact perform_status_eq (.inl ⟨v, rfl⟩) h
  | outPop => exact perform_status_eq (.inr (.inl rfl)) h
  | memGet a => exact perform_status_eq (.inr (.inr (.inl ⟨a, rfl⟩))) h
  | memSet a v => exact perform_status_eq (.inr (.inr (.inr ⟨a, v, rfl⟩))) h
  | readStatus =>
    cases h
    rfl

end Sys2Proof.Machine

/-! Several engines: what a command on one of them reaches (R99, R137). -/

namespace Sys2Proof.Machine

/-- Network net' differs from net in engine k's own state and in the contents of the two devices of its node n. -/
structure Confined (k : Nat) (n : Node) (net net' : Network) : Prop where
  nodes : ∀ j, j ≠ k → net'.nodes[j]? = net.nodes[j]?
  devices : ∀ d, d < net.devices.length → d ≠ n.inDev → d ≠ n.outDev → net'.device d = net.device d

/-- As `Confined`, and the wiring of engine k is as it was: what a command without a LOAD leaves. -/
structure ConfinedRun (k : Nat) (n : Node) (net net' : Network) : Prop extends Confined k n net net' where
  wired : ∃ s, net'.nodes[k]? = some { n with own := s }

theorem Confined.refl (k : Nat) (n : Node) (net : Network) : Confined k n net net :=
  ⟨fun _ _ => rfl, fun _ _ _ _ => rfl⟩

theorem ConfinedRun.refl {k : Nat} {n : Node} {net : Network} (hn : net.nodes[k]? = some n) :
    ConfinedRun k n net net := { Confined.refl k n net with wired := ⟨n.own, hn⟩ }

theorem getD_set_of_ne {α : Type} {l : List α} {i j : Nat} (h : j ≠ i) (a b : α) :
    (l.set i a).getD j b = l.getD j b := by
  rw [List.getD_eq_getElem?_getD, List.getD_eq_getElem?_getD, List.getElem?_set_ne h.symm]

theorem getD_set_self {α : Type} {l : List α} {i : Nat} (h : i < l.length) (a b : α) : (l.set i a).getD i b = a := by
  rw [List.getD_eq_getElem?_getD, List.getElem?_set_self h, Option.getD_some]

/-- R137: the table of devices is written at the two devices of the engine alone. -/
theorem Network.getD_store_of_ne {net : Network} {n : Node} {d : Nat} (s : State) (hin : d ≠ n.inDev)
    (hout : d ≠ n.outDev) : (net.store n s).getD d [] = net.device d := by
  rw [Network.store]
  split
  · exact getD_set_of_ne hin _ _
  · rw [getD_set_of_ne hout, getD_set_of_ne hin, Network.device]

theorem Network.view_eq {net : Network} {k : Nat} {n : Node} (hn : net.nodes[k]? = some n) :
    net.view k = net.fill n := by rw [Network.view, hn]

theorem Network.update_eq {net : Network} {k : Nat} {n : Node} (hn : net.nodes[k]? = some n) (f : State → State) :
    net.update k f =
      { nodes := net.nodes.set k { n with own := ((f (net.fill n)).setInq []).setOutq [] }
        devices := net.store n (f (net.fill n)) } := by rw [Network.update, hn]

/-- One transaction on engine k, after others. -/
theorem ConfinedRun.update {k : Nat} {n : Node} {net net' : Network} (h : ConfinedRun k n net net')
    (f : State → State) : ConfinedRun k n net (net'.update k f) := by
  obtain ⟨s, hs⟩ := h.wired
  have hk : k < net'.nodes.length := (List.getElem?_eq_some_iff.mp hs).1
  rw [Network.update_eq hs]
  refine ⟨⟨fun j hj => ?_, fun d hd hin hout => ?_⟩, _, List.getElem?_set_self hk⟩
  · exact (List.getElem?_set_ne hj.symm).trans (h.nodes j hj)
  · exact (Network.getD_store_of_ne (n := { n with own := s }) _ hin hout).trans (h.devices d hd hin hout)

/-- A LOAD of an engine that exists sets its node and takes the devices it is given by number. -/
theorem Network.reload_supplied {net net' : Network} {k i o : Nat} {program : List Word}
    (h : net.reload k program (some i) (some o) = some net') :
    ∃ n', net' = { net with nodes := net.nodes.set k n' } := by
  rw [Network.reload] at h
  split at h
  · cases h
  · rw [Network.place] at h
    split at h
    · cases h
    next n' devices hplace =>
      split at hplace
      · cases hplace
      · split at hplace
        · cases hplace
          cases h
          exact ⟨_, rfl⟩
        · cases hplace

/-- New devices come behind the ones in the table. -/
theorem Network.confined_of_load {net : Network} {k : Nat} {n n' : Node} {new : List (List Word)} :
    Confined k n net { nodes := net.nodes.set k n', devices := net.devices ++ new } where
  nodes _ hj := List.getElem?_set_ne hj.symm
  devices _ hd _ _ := List.getD_append _ _ _ _ hd

theorem Network.perform_confined {fuel k : Nat} {cmd : Command} {r : Response} {n : Node} {net net' : Network}
    (hn : net.nodes[k]? = some n) (h : net.perform fuel k cmd = some (r, net')) : Confined k n net net' := by
  have hrefl : ConfinedRun k n net net := .refl hn
  have honce : ∀ f : State → State, Confined k n net (net.update k f) := fun f => (hrefl.update f).toConfined
  have hqueue : ∀ (words : List Word) (s : State), ConfinedRun k n net net →
      (net.view k).pushInputs words = some s → ConfinedRun k n net (net.update k fun _ => s) :=
    fun _ _ hnet _ => hnet.update _
  cases cmd with
  | load program inDev outDev =>
    simp only [Network.perform] at h
    split at h
    next =>
      cases h
      exact hrefl.toConfined
    next hreload =>
      cases h
      obtain ⟨n', rfl⟩ := Network.reload_supplied hreload
      exact Network.confined_of_load
  | run seed =>
    have hloop : ∀ x, runLoop (Network.view k) (Network.update k) fuel x = some (r, net') →
        ConfinedRun k n net x → ConfinedRun k n net net' :=
      fun _ hl => runLoop_keeps (fun _ hx => hx.update _) hl
    exact (drive_keeps (hqueue seed) hloop h hrefl).toConfined
  | resume inputs =>
    have hloop : ∀ x, resumeLoop (Network.view k) (Network.update k) fuel x = some (r, net') →
        ConfinedRun k n net x → ConfinedRun k n net net' :=
      fun _ hl => resumeLoop_keeps (fun _ hx => hx.update _) (fun _ _ hx _ _ => hx.update _) hl
    exact (drive_keeps (hqueue inputs) hloop h hrefl).toConfined
  | step | inPush | outPop | memGet | memSet =>
    cases h
    exact honce _
  | readStatus =>
    cases h
    exact hrefl.toConfined

/-- Settles O59: each transaction of a command is confined to engine k and its devices. -/
theorem enginesAreIsolated : Obligations.EnginesAreIsolated := by
  unfold Obligations.EnginesAreIsolated
  intro fuel k cmd r n net net' hn h
  have hconfined : Confined k n net net' := Network.perform_confined hn h
  exact ⟨hconfined.nodes, hconfined.devices⟩

/-- R99: a transaction that leaves the engine's `inq` alone leaves its `outq` in its output device, also where that is
its input device too. -/
theorem Network.getD_store_outDev {net : Network} {n : Node} {s : State} (hout : n.outDev < net.devices.length)
    (hin : s.inq = net.device n.inDev) : (net.store n s).getD n.outDev [] = s.outq := by
  rw [Network.store]
  split
  next hshared =>
    rw [hshared] at hin ⊢
    rw [getD_set_self hout, mergeQueues, if_pos hin]
  next => exact getD_set_self (by rwa [List.length_set]) _ _

/-- Settles O60: the step of j appends to the device that k reads from. -/
theorem sharedFifoKeepsOrder : Obligations.SharedFifoKeepsOrder := by
  unfold Obligations.SharedFifoKeepsOrder
  intro j k nj nk v net t hjk hnj hnk hshared hdev hlive hstep hv
  obtain ⟨houtq, hinq, -, -⟩ := step_vout hlive hstep hv
  rw [Network.view_eq hnj] at houtq hinq hstep
  have hnk' : (net.update j stepState).nodes[k]? = some nk := by
    rw [Network.update_eq hnj]
    exact (List.getElem?_set_ne hjk).trans hnk
  have hdevice : (net.update j stepState).device nk.inDev = t.outq := by
    rw [Network.update_eq hnj, stepState_of_step hstep, ← hshared]
    exact Network.getD_store_outDev hdev hinq
  rw [Network.view_eq hnk', Network.view_eq hnk]
  change (net.update j stepState).device nk.inDev = net.device nk.inDev ++ [v]
  rw [hdevice, houtq, ← hshared]
  rfl

end Sys2Proof.Machine
